-- ==== Sys2Proof/Word.lean ====
section
/-! DEFINITION. The word types of the PRBS core: what the register port moves and what the registers hold. -/

namespace Sys2Proof

/-- A word of the register port, 32 bits (00_scope.md R6, 20_memory.md R66). -/
abbrev Word := BitVec 32

/-- A word index of the register window, 0 to 63 (00_scope.md R4). -/
abbrev Index := BitVec 6

/-- What the LFSR register, the tap masks, the seed and the entropy port hold (10_state.md R21, 00_scope.md R4). -/
abbrev Bits31 := BitVec 31

/-- The 64-bit counters and lengths (00_scope.md R6). -/
abbrev Count := BitVec 64

end Sys2Proof
end

