-- ==== Sys2Proof/Syntax.lean ====
section
/-! DEFINITION. The commands of the PRBS core: one constructor per row of spec/opcode_table.json (30_encoding.md R92).
No command has an operand field (R93); a command's operands are registers, read when it executes. -/

namespace Sys2Proof

/-- The six legal command words (30_encoding.md R92). Every other word is illegal (R95) and no instruction. -/
inductive Instr where
  /-- NOP, word 0 (40_command_dispatch.md R112). -/
  | nop
  /-- GENERATE, word 1 (43_prbs_generator.md R170). -/
  | generate
  /-- ABORT, word 2 (40_command_dispatch.md R113). -/
  | abort
  /-- SELECT, word 3 (41_width_selector.md R138). -/
  | select
  /-- LOAD_STATE, word 4 (42_lfsr_engine.md R158). -/
  | loadState
  /-- STEP, word 5 (42_lfsr_engine.md R159). -/
  | step
deriving DecidableEq, Repr

end Sys2Proof
end

