-- ==== Sys2Proof/HostSyntax.lean ====
section
/-! DEFINITION. What crosses the block's ports in one clock cycle (00_scope.md R4), the BUS transaction (30_encoding.md R90),
the register names (10_state.md R21) and the notation for host programs (30_encoding.md R96, R97). Types only. -/

namespace Sys2Proof

/-- One register-port transaction: the port values of a cycle with `reg_sel` = 1 (30_encoding.md R90). -/
structure BusTxn where
  /-- `reg_we`: 1 write, 0 read. -/
  we : Bool
  /-- `reg_addr`: the word index. -/
  addr : Index
  /-- `reg_wdata`; 0 in a read. -/
  data : Word
deriving DecidableEq, Repr, Inhabited

/-- The block's inputs in one clock cycle (00_scope.md R4). All are free inputs of the step (10_state.md R24). -/
structure CycleIn where
  /-- `rst`. -/
  rst : Bool
  /-- The host's access: `none` when `reg_sel` = 0. -/
  bus : Option BusTxn
  /-- `s_ready`. -/
  sReady : Bool
  /-- The entropy source's offer: `none` when `rng_valid` = 0, else `rng_data`. -/
  rng : Option Bits31
deriving DecidableEq, Repr, Inhabited

/-- The named words of the register map (10_state.md R21). The reserved words 19 and 31 have no name. -/
inductive RegName where
  | id | version | cmd | status | tmax | tmin | initMode | stateWr
  | pTmax | pTmin | pMode | widthCalc | width | taps | period | state
  | seed | lastOut | stepCnt
  | lenLo | lenHi | sampleCntLo | sampleCntHi | rlMaxLo | rlMaxHi | rlMinLo | rlMinHi
  | rlCurLenLo | rlCurLenHi | rlCur
  /-- TAP_ROM[w], w in 0..31. -/
  | tapRom (w : BitVec 5)
deriving DecidableEq, Repr

/-- The operations of a host program (30_encoding.md R96) and its pseudo-instructions (R97). -/
inductive HostOp where
  /-- `wr REG, imm`; a negative decimal is its 32-bit two's complement. -/
  | wr (r : RegName) (imm : Int)
  /-- `rd REG [-> name]`. -/
  | rd (r : RegName) (name : Option String)
  /-- `cmd NAME`, that is `wr CMD, OP(NAME)`. -/
  | cmd (i : Instr)
  /-- `cfg a, b, m`. -/
  | cfg (a b m : Int)
  /-- `wait`: read STATUS into `t` until BUSY is 0. -/
  | wait
  /-- `drain`: the consumer holds `s_ready` = 1 from here on. -/
  | drain
  /-- `rng d0, d1, ...`: the entropy source offers these values in order. -/
  | rng (draws : List Nat)
deriving DecidableEq, Repr

/-- A line of a host program: `[label ':'] op` (30_encoding.md R96). -/
structure HostLine where
  label : Option String
  op : HostOp
deriving DecidableEq, Repr

end Sys2Proof
end

