-- ==== Sys2Proof/WellFormed.lean ====
section
/-! DEFINITION. Which terms of the syntax the spec admits. A command has no operand, so every `Instr` is well formed
(30_encoding.md R93); a BUS transaction and a line of a host program have bounds to meet. -/

namespace Sys2Proof

/-- Every command is well formed: none has an operand field (30_encoding.md R93). -/
def Instr.wellFormed : Instr → Bool
  | .nop => true
  | .generate => true
  | .abort => true
  | .select => true
  | .loadState => true
  | .step => true

/-- DATA is "write data; 0 in a read" (30_encoding.md R90). -/
def BusTxn.wellFormed (t : BusTxn) : Bool := t.we || t.data == 0

/-- An immediate is a 32-bit word, or a negative decimal in two's complement (30_encoding.md R96). -/
def immWellFormed (imm : Int) : Bool := decide (-(2 ^ 31 : Int) ≤ imm ∧ imm < 2 ^ 32)

/-- The bounds of one operation of a host program: its immediates fit a word (30_encoding.md R96), its draws fit
`rng_data[30:0]` (00_scope.md R4). -/
def HostOp.wellFormed : HostOp → Bool
  | .wr _ imm => immWellFormed imm
  | .rd _ _ => true
  | .cmd i => i.wellFormed
  | .cfg a b m => immWellFormed a && immWellFormed b && immWellFormed m
  | .wait => true
  | .drain => true
  | .rng draws => draws.all fun d => decide (d < 2 ^ 31)

/-- A host program is well formed when every line is. -/
def HostLine.wellFormed (l : HostLine) : Bool := l.op.wellFormed

end Sys2Proof
end

