-- ==== Sys2Proof/Decode.lean ====
section
/-! DEFINITION. Command words (30_encoding.md R90 to R92, R95), the BUS transaction word (R90) and the register indices (R96):
decoding, total on every word, and encoding, both from the spec's tables. -/

namespace Sys2Proof

/-- Why a command word is illegal (30_encoding.md R95). -/
inductive IllegalWord where
  /-- A bit of RES, [31:4], is set. -/
  | reservedBits
  /-- OP, [3:0], is one of 6 to 15. -/
  | reservedOpcode
deriving DecidableEq, Repr

/-- The reserved field RES of a command word (30_encoding.md R90). -/
def cmdRes (w : Word) : BitVec 28 := w.extractLsb' 4 28

/-- The opcode field OP of a command word (30_encoding.md R90). -/
def cmdOp (w : Word) : BitVec 4 := w.extractLsb' 0 4

/-- The opcode map (30_encoding.md R92). -/
def ofOp (op : BitVec 4) : Option Instr :=
  match op.toNat with
  | 0 => some .nop
  | 1 => some .generate
  | 2 => some .abort
  | 3 => some .select
  | 4 => some .loadState
  | 5 => some .step
  | _ => none

/-- Decoding of a command word, total on all 2^32 words (30_encoding.md R91). -/
def decode (w : Word) : Except IllegalWord Instr :=
  if cmdRes w ≠ 0 then .error .reservedBits
  else match ofOp (cmdOp w) with
    | some i => .ok i
    | none => .error .reservedOpcode

/-- OP(NAME) of the opcode map (30_encoding.md R92). -/
def opOf : Instr → BitVec 4
  | .nop => 0
  | .generate => 1
  | .abort => 2
  | .select => 3
  | .loadState => 4
  | .step => 5

/-- The command word of a command: RES = 0 and OP (30_encoding.md R90, R92). -/
def encode (i : Instr) : Word := (0 : BitVec 28) ++ opOf i

/-- What the decoder reads from a table word `w` of `nbits` bits: the bits above `nbits` are 0. The block moves a command
word as a value, with no byte order (20_memory.md R64), so the words are laid out as the value itself. -/
def decodeTableWord (nbits w : Nat) : Option Instr :=
  let v := w % 2 ^ nbits
  if v < 2 ^ 32 then
    match decode (BitVec.ofNat 32 v) with
    | .ok i => some i
    | .error _ => none
  else none

/-- The 39-bit word of a transaction: WE, ADDR, DATA from the top (30_encoding.md R90). -/
def BusTxn.encode (t : BusTxn) : BitVec 39 := BitVec.ofBool t.we ++ t.addr ++ t.data

/-- The transaction of a 39-bit word (30_encoding.md R90). -/
def BusTxn.decode (w : BitVec 39) : BusTxn :=
  { we := w.getLsbD 38, addr := w.extractLsb' 32 6, data := w.extractLsb' 0 32 }

/-- The word index of a register (30_encoding.md R96; byte offset = 4 x index, 10_state.md R21). -/
def RegName.index : RegName → Index
  | .id => 0
  | .version => 1
  | .cmd => 2
  | .status => 3
  | .tmax => 4
  | .tmin => 5
  | .initMode => 6
  | .stateWr => 7
  | .pTmax => 8
  | .pTmin => 9
  | .pMode => 10
  | .widthCalc => 11
  | .width => 12
  | .taps => 13
  | .period => 14
  | .state => 15
  | .seed => 16
  | .lastOut => 17
  | .stepCnt => 18
  | .lenLo => 20
  | .lenHi => 21
  | .sampleCntLo => 22
  | .sampleCntHi => 23
  | .rlMaxLo => 24
  | .rlMaxHi => 25
  | .rlMinLo => 26
  | .rlMinHi => 27
  | .rlCurLenLo => 28
  | .rlCurLenHi => 29
  | .rlCur => 30
  | .tapRom w => (1 : BitVec 1) ++ w

/-- The register at a word index; `none` at the reserved words 19 and 31 (10_state.md R21, R52). -/
def regAt (a : Index) : Option RegName :=
  if a.getLsbD 5 then some (.tapRom (a.extractLsb' 0 5))
  else match a.toNat with
    | 0 => some .id
    | 1 => some .version
    | 2 => some .cmd
    | 3 => some .status
    | 4 => some .tmax
    | 5 => some .tmin
    | 6 => some .initMode
    | 7 => some .stateWr
    | 8 => some .pTmax
    | 9 => some .pTmin
    | 10 => some .pMode
    | 11 => some .widthCalc
    | 12 => some .width
    | 13 => some .taps
    | 14 => some .period
    | 15 => some .state
    | 16 => some .seed
    | 17 => some .lastOut
    | 18 => some .stepCnt
    | 20 => some .lenLo
    | 21 => some .lenHi
    | 22 => some .sampleCntLo
    | 23 => some .sampleCntHi
    | 24 => some .rlMaxLo
    | 25 => some .rlMaxHi
    | 26 => some .rlMinLo
    | 27 => some .rlMinHi
    | 28 => some .rlCurLenLo
    | 29 => some .rlCurLenHi
    | 30 => some .rlCur
    | _ => none

end Sys2Proof
end

