-- ==== Sys2Proof/Config.lean ====
section
/-! DEFINITION. The free values: what no rule of the spec fixes, as constants without a body, of which nothing can be proved.
The block has no optional feature and no parameter left open (00_scope.md R6). -/

namespace Sys2Proof.Config

/-- FREE VALUE (log 2, DESIGN CHOICE): the block's inputs in cycle `k`, where State lists none. The spec: "They are free inputs
of the step relation. A model quantifies over them and puts no law on them" (10_state.md R24). -/
opaque freeInput : Nat → CycleIn

/-- FREE VALUE (log 6, DESIGN CHOICE): `j mod t` for t < 1. The spec defines `mod` on naturals (00_scope.md R7) and gives no
remainder by 0 or by a negative number; 10_state.md R53 asks for it in IDLE, where P_TMIN may be 0. -/
opaque remNonPositive : Nat → Int → Nat

/-- FREE VALUE (log 7, DESIGN CHOICE): `s[n-1]` for n = 0. 10_state.md R53 asks for STATE[WIDTH-1] in IDLE, where WIDTH may
be 0. -/
opaque bitBelowZero : Bits31 → Bool

end Sys2Proof.Config
end

