-- ==== Sys2Proof/Machine/State.lean ====
section
/-! DEFINITION. The state of the PRBS core (10_state.md R20, R21), the reasons a step can stop, and the state after reset
(10_state.md R57, 70_reset_and_hazards.md R240). ID, VERSION and TAP_ROM are constants and no fields (log 10). -/

namespace Sys2Proof.Machine

/-- The core phase, PHASE of STATUS (10_state.md R31). The codes 5, 6 and 7 are never produced and have no name. -/
inductive Phase where
  | idle | seed | run | check | halted
deriving DecidableEq, Repr

/-- ERR_CODE of STATUS (10_state.md R32). The reserved codes 10 to 15 are never produced and have no name. -/
inductive ErrCode where
  | noError
  /-- Reserved for the source's `TypeMismatch`; never produced (60_exceptions.md R211). -/
  | typeMismatch
  | outOfRange
  | unsupportedOption
  | configurationError
  | internalInvariantViolation
  | illegalCommand
  | notConfigured
  | zeroState
  | aborted
deriving DecidableEq, Repr

/-- The fields of STATUS (10_state.md R30). -/
structure Status where
  busy : Bool
  done : Bool
  error : Bool
  fatal : Bool
  phase : Phase
  dropped : Bool
  errCode : ErrCode
  errDetail : BitVec 2
deriving DecidableEq, Repr

/-- The registers the host writes (10_state.md R22, R27 to R29, R35). -/
structure HostRegs where
  tmax : Word
  tmin : Word
  initMode : Word
  stateWr : Word
deriving DecidableEq, Repr

/-- The latched parameters P_TMAX, P_TMIN, P_MODE (10_state.md R36). -/
structure Latched where
  pTmax : Word
  pTmin : Word
  pMode : Word
deriving DecidableEq, Repr

/-- What the width selector leaves: WIDTH_CALC, WIDTH, TAPS, PERIOD, LEN (10_state.md R37 to R40, R45). -/
structure Selection where
  widthCalc : Word
  width : BitVec 5
  taps : Bits31
  period : Bits31
  len : Count
deriving DecidableEq, Repr

/-- The registers of the LFSR: STATE, SEED, LAST_OUT, STEP_CNT (10_state.md R41 to R44). -/
structure LfsrRegs where
  state : Bits31
  seed : Bits31
  lastOut : Bool
  stepCnt : Word
deriving DecidableEq, Repr

/-- The run-length enforcer: RL_MAX, RL_MIN, RL_CUR_LEN, CUR_VAL, HAVE (10_state.md R47 to R50). -/
structure Enforcer where
  rlMax : Count
  rlMin : Count
  rlCurLen : Count
  curVal : Bool
  /-- HAVE. -/
  hasRun : Bool
deriving DecidableEq, Repr

/-- A sample the consumer accepted, with `s_last` (00_scope.md R9, `Emit(b, last)`). -/
structure Sample where
  val : Bool
  last : Bool
deriving DecidableEq, Repr

/-- A register read: the word index and the value `reg_rdata` carried (20_memory.md R61). -/
structure ReadResult where
  addr : Index
  value : Word
deriving DecidableEq, Repr

/-- Why the machine stops with a fault: never. The spec gives every cycle of every state a next state (an error is a report in
STATUS, 60_exceptions.md R210, and HALTED a phase the block stays in, 40_command_dispatch.md R116), so no constructor exists
and nobody raises one (log 13). Safe: the type is empty, so no claim can rest on a fault. -/
inductive Fault where
deriving DecidableEq, Repr

/-- Why an instruction is refused. -/
inductive Refusal where
  /-- Raised by an arm of `exec` whose instruction has no meaning yet. No arm raises it. Safe: the machine stops. -/
  | notModelled (mnemonic : String)
deriving DecidableEq, Repr

/-- Registers of 10_state.md R21, grouped by sub-block, and the four fields of the model's own. -/
structure State where
  host : HostRegs
  status : Status
  latched : Latched
  sel : Selection
  lfsr : LfsrRegs
  /-- SAMPLE_CNT (10_state.md R46). -/
  sampleCnt : Count
  enf : Enforcer
  /-- OUT: the samples the consumer accepted since the last GENERATE that passed validation, first one first (20_memory.md
  R63). No register of the block (43_prbs_generator.md R170; log 4). -/
  out : List Sample
  /-- The results of the host's register reads, first one first (log 5). -/
  reads : List ReadResult
  /-- The inputs of the next cycles (10_state.md R24; log 2). -/
  inputs : List CycleIn
  /-- The number of cycles so far: the index of `Config.freeInput` (log 2). -/
  cycle : Nat
deriving DecidableEq, Repr

/-- The outcome of a step of this machine. -/
abbrev Outcome := Host.Outcome State Fault Refusal

/-- STATUS after reset: IDLE, every flag 0 (10_state.md R57). -/
def Status.reset : Status where
  busy := false
  done := false
  error := false
  fatal := false
  phase := .idle
  dropped := false
  errCode := .noError
  errDetail := 0

/-- The host-writable registers after reset (10_state.md R27 to R29, R35). -/
def HostRegs.reset : HostRegs where
  tmax := 0
  tmin := 0
  initMode := 0
  stateWr := 0

/-- The latched parameters after reset (10_state.md R36). -/
def Latched.reset : Latched where
  pTmax := 0
  pTmin := 0
  pMode := 0

/-- No width selected: the selector's registers after reset (10_state.md R37 to R40, R45). -/
def Selection.reset : Selection where
  widthCalc := 0
  width := 0
  taps := 0
  period := 0
  len := 0

/-- The LFSR's registers after reset (10_state.md R41 to R44). -/
def LfsrRegs.reset : LfsrRegs where
  state := 0
  seed := 0
  lastOut := false
  stepCnt := 0

/-- The enforcer after reset: no run closed, RL_MIN = 2^64 - 1 (10_state.md R47 to R50). -/
def Enforcer.reset : Enforcer where
  rlMax := 0
  rlMin := 0xFFFFFFFFFFFFFFFF
  rlCurLen := 0
  curVal := false
  hasRun := false

/-- The machine right after reset (10_state.md R57, 70_reset_and_hazards.md R240). -/
def State.reset : State where
  host := .reset
  status := .reset
  latched := .reset
  sel := .reset
  lfsr := .reset
  sampleCnt := 0
  enf := .reset
  out := []
  reads := []
  inputs := []
  cycle := 0

end Sys2Proof.Machine
end

