-- ==== Sys2Proof/Machine/Operands.lean ====
section
/-! DEFINITION. The operands of the rules' pseudocode: signed reading, ceiling, bit fields, parity, remainder, and the tap
table (00_scope.md R7, R8; 30_encoding.md R94; 41_width_selector.md R139). -/

namespace Sys2Proof.Machine

/-- `sint32(v)`: two's complement (00_scope.md R8). -/
def sint32 (v : Word) : Int := if v.msb then (v.toNat : Int) - 2 ^ 32 else v.toNat

/-- `ceil(a / b)` for naturals with b > 0 (00_scope.md R7). -/
def ceilDiv (a b : Nat) : Nat := (a + b - 1) / b

/-- `2^n - 1`, the mask of the low n bits, n ≤ 31. -/
def lowMask (n : Nat) : Bits31 := BitVec.ofNat 31 (2 ^ n - 1)

/-- `v[n-1:0]`, zero-extended (00_scope.md R7). -/
def lowBits (n : Nat) (v : Bits31) : Bits31 := v &&& lowMask n

/-- The value LOAD_STATE loads: `STATE_WR[n-1:0]`, n ≤ 31; the bits above are ignored (30_encoding.md R94). -/
def loadValue (n : Nat) (stateWr : Word) : Bits31 := lowBits n (stateWr.setWidth 31)

/-- XOR of the low `k` bits of `v`. -/
def parityUpTo (v : Bits31) : Nat → Bool
  | 0 => false
  | k + 1 => v.getLsbD k != parityUpTo v k

/-- `parity(v)`: the XOR of all bits (00_scope.md R7). -/
def parity (v : Bits31) : Bool := parityUpTo v 31

/-- `v[n-1]`, the output end of a register of width n; a free value when n = 0 (log 7). -/
def topBit (n : Nat) (v : Bits31) : Bool := if n = 0 then Config.bitBelowZero v else v.getLsbD (n - 1)

/-- `j mod t`; a free value when t < 1 (log 6). -/
def remainder (j : Nat) (t : Int) : Nat := if 1 ≤ t then j % t.toNat else Config.remNonPositive j t

/-- INIT_MODE code of `Random` (30_encoding.md R94, R98). -/
def modeRandom : Word := 0

/-- INIT_MODE code of `Ones` (30_encoding.md R94, R98). -/
def modeOnes : Word := 1

/-- The source's tap lists, by width (41_width_selector.md R139); widths 0 and 1 have none. -/
def tapList (w : Nat) : List Nat :=
  match w with
  | 2 => [2, 1]
  | 3 => [3, 1]
  | 4 => [4, 1]
  | 5 => [5, 2]
  | 6 => [6, 1]
  | 7 => [7, 1]
  | 8 => [8, 4, 3, 2]
  | 9 => [9, 4]
  | 10 => [10, 3]
  | 11 => [11, 2]
  | 12 => [12, 6, 4, 1]
  | 13 => [13, 4, 3, 1]
  | 14 => [14, 8, 6, 1]
  | 15 => [15, 1]
  | 16 => [16, 12, 3, 1]
  | 17 => [17, 3]
  | 18 => [18, 7]
  | 19 => [19, 5, 2, 1]
  | 20 => [20, 3]
  | 21 => [21, 2]
  | 22 => [22, 1]
  | 23 => [23, 5]
  | 24 => [24, 7, 2, 1]
  | 25 => [25, 3]
  | 26 => [26, 6, 2, 1]
  | 27 => [27, 5, 2, 1]
  | 28 => [28, 3]
  | 29 => [29, 2]
  | 30 => [30, 23, 2, 1]
  | 31 => [31, 3]
  | _ => []

/-- The mask of a tap list: `Σ 2^(t-1)` (41_width_selector.md R139). -/
def tapMask (taps : List Nat) : Bits31 := BitVec.ofNat 31 (taps.map fun t => 2 ^ (t - 1)).sum

/-- TAP_ROM[w] (10_state.md R51, 41_width_selector.md R139). -/
def tapRom (w : Nat) : Bits31 := tapMask (tapList w)

end Sys2Proof.Machine
end

