-- ==== Sys2Proof/Machine/Flags.lean ====
section
/-! DEFINITION. STATUS: its codes, its word, and what commands do to its fields (10_state.md R30 to R33;
40_command_dispatch.md R111, R114; 60_exceptions.md R212). -/

namespace Sys2Proof.Machine

/-- PHASE codes (10_state.md R31). -/
def Phase.code : Phase → BitVec 3
  | .idle => 0
  | .seed => 1
  | .run => 2
  | .check => 3
  | .halted => 4

/-- ERR_CODE values (10_state.md R32). -/
def ErrCode.code : ErrCode → BitVec 4
  | .noError => 0
  | .typeMismatch => 1
  | .outOfRange => 2
  | .unsupportedOption => 3
  | .configurationError => 4
  | .internalInvariantViolation => 5
  | .illegalCommand => 6
  | .notConfigured => 7
  | .zeroState => 8
  | .aborted => 9

/-- The STATUS word (10_state.md R30); bits 31:14 read 0. -/
def Status.word (f : Status) : Word :=
  (0 : BitVec 18) ++ f.errDetail ++ f.errCode.code ++ BitVec.ofBool f.dropped ++ f.phase.code ++ BitVec.ofBool f.fatal
    ++ BitVec.ofBool f.error ++ BitVec.ofBool f.done ++ BitVec.ofBool f.busy

/-- What every accepted command does first: clear DONE, ERROR, ERR_CODE, ERR_DETAIL and DROPPED (40_command_dispatch.md
R111). FATAL is not cleared. -/
def Status.clearReport (f : Status) : Status :=
  { f with done := false, error := false, errCode := .noError, errDetail := 0, dropped := false }

/-- The writes of `raise Error(code, detail)` (60_exceptions.md R212). -/
def Status.raise (code : ErrCode) (detail : BitVec 2) (f : Status) : Status :=
  { f with error := true, errCode := code, errDetail := detail }

/-- A command word dropped while BUSY (40_command_dispatch.md R114). -/
def Status.drop (f : Status) : Status := { f with dropped := true }

/-- The flags of a run's start (43_prbs_generator.md R170). -/
def Status.startRun (f : Status) : Status := { f with busy := true, phase := .seed }

/-- The flags of ABORT while BUSY (40_command_dispatch.md R113). -/
def Status.abortRun (f : Status) : Status :=
  { f with phase := .idle, busy := false, done := false, dropped := false }.raise .aborted 0

/-- The flags of a passing CHECK step (44_run_length_enforcer.md R192, R193). -/
def Status.pass (f : Status) : Status := { f with busy := false, done := true, phase := .idle }

/-- ERR_DETAIL of a failing CHECK step: bit 0 the longest run, bit 1 the shortest (10_state.md R33). -/
def violationDetail (okMax okMin : Bool) : BitVec 2 := BitVec.ofBool (!okMin) ++ BitVec.ofBool (!okMax)

/-- The flags of a failing CHECK step (44_run_length_enforcer.md R192, R194). -/
def Status.violate (okMax okMin : Bool) (f : Status) : Status :=
  { f with busy := false, fatal := true, phase := .halted }.raise .internalInvariantViolation (violationDetail okMax okMin)

end Sys2Proof.Machine
end

