-- ==== Sys2Proof/Machine/Ops.lean ====
section
/-! DEFINITION. The shared operations: the one error report (60_exceptions.md R212), the gate every command passes
(40_command_dispatch.md R110), reading and writing the register window (20_memory.md R61, R62), and reset
(70_reset_and_hazards.md R240). The block has no return from an error (60_exceptions.md R220). -/

namespace Sys2Proof.Machine

/-- `raise Error(code, detail)`: the one error-report mechanism. It saves no state and sends control nowhere
(60_exceptions.md R212, R219). -/
def raiseError (code : ErrCode) (detail : BitVec 2) (s : State) : State :=
  { s with status := s.status.raise code detail }

/-- The clearing that begins every accepted command (40_command_dispatch.md R111). -/
def clearReport (s : State) : State := { s with status := s.status.clearReport }

/-- A command word other than NOP or ABORT while BUSY: DROPPED is set, nothing else changes (40_command_dispatch.md R114). -/
def dropWord (s : State) : State := { s with status := s.status.drop }

/-- The gate of `dispatch`: HALTED ignores every word, BUSY takes `busy`, IDLE takes `idle` (40_command_dispatch.md R110). -/
def gate (busy idle : State → State) (s : State) : State :=
  if s.status.phase = .halted then s
  else if s.status.busy then busy s
  else idle s

/-- A command that is dropped while BUSY and, in IDLE, is accepted: the report is cleared, then its own effect follows
(40_command_dispatch.md R110, R111, R114). -/
def acceptIdle (effect : State → State) (s : State) : State :=
  gate dropWord (fun s => effect (clearReport s)) s

/-- The constant ID reads: "PRBS" (10_state.md R25). -/
def idValue : Word := 0x50524253

/-- The constant VERSION reads (10_state.md R25). -/
def versionValue : Word := 0x00000001

/-- Q_LO of a 64-bit quantity: bits 31:0 (20_memory.md R64). -/
def loWord (q : Count) : Word := q.extractLsb' 0 32

/-- Q_HI of a 64-bit quantity: bits 63:32 (20_memory.md R64). -/
def hiWord (q : Count) : Word := q.extractLsb' 32 32

/-- The value of a register as a read returns it (10_state.md R25 to R51). CMD reads 0 (R26). -/
def readReg (r : RegName) (s : State) : Word :=
  match r with
  | .id => idValue
  | .version => versionValue
  | .cmd => 0
  | .status => s.status.word
  | .tmax => s.host.tmax
  | .tmin => s.host.tmin
  | .initMode => s.host.initMode
  | .stateWr => s.host.stateWr
  | .pTmax => s.latched.pTmax
  | .pTmin => s.latched.pTmin
  | .pMode => s.latched.pMode
  | .widthCalc => s.sel.widthCalc
  | .width => s.sel.width.setWidth 32
  | .taps => s.sel.taps.setWidth 32
  | .period => s.sel.period.setWidth 32
  | .state => s.lfsr.state.setWidth 32
  | .seed => s.lfsr.seed.setWidth 32
  | .lastOut => (BitVec.ofBool s.lfsr.lastOut).setWidth 32
  | .stepCnt => s.lfsr.stepCnt
  | .lenLo => loWord s.sel.len
  | .lenHi => hiWord s.sel.len
  | .sampleCntLo => loWord s.sampleCnt
  | .sampleCntHi => hiWord s.sampleCnt
  | .rlMaxLo => loWord s.enf.rlMax
  | .rlMaxHi => hiWord s.enf.rlMax
  | .rlMinLo => loWord s.enf.rlMin
  | .rlMinHi => hiWord s.enf.rlMin
  | .rlCurLenLo => loWord s.enf.rlCurLen
  | .rlCurLenHi => hiWord s.enf.rlCurLen
  | .rlCur => (BitVec.ofBool s.enf.hasRun ++ BitVec.ofBool s.enf.curVal).setWidth 32
  | .tapRom w => (tapRom w.toNat).setWidth 32

/-- `word_value(a)` of `MemRead(a, 4)`: the word at a word index; reserved words read 0 (20_memory.md R61). -/
def readWord (a : Index) (s : State) : Word :=
  match regAt a with
  | some r => readReg r s
  | none => 0

/-- A host write to a word other than CMD: an RW word stores all 32 bits in every phase, a read-only word, a constant or a
reserved word ignores the write (20_memory.md R62). -/
def writeWord (a : Index) (v : Word) (s : State) : State :=
  match regAt a with
  | some .tmax => { s with host.tmax := v }
  | some .tmin => { s with host.tmin := v }
  | some .initMode => { s with host.initMode := v }
  | some .stateWr => { s with host.stateWr := v }
  | _ => s

/-- A read's result reaches the host; no register changes (20_memory.md R61). `value` is the word's value before this cycle's
updates (00_scope.md R4). -/
def recordRead (a : Index) (value : Word) (s : State) : State :=
  { s with reads := s.reads ++ [{ addr := a, value := value }] }

/-- `reset()`: every register takes its reset value (70_reset_and_hazards.md R240). What the consumer and the host have
received is not the block's and stays (log 4, log 5). -/
def resetBlock (s : State) : State :=
  { s with host := .reset, status := .reset, latched := .reset, sel := .reset, lfsr := .reset, sampleCnt := 0, enf := .reset }

end Sys2Proof.Machine
end

