-- ==== Sys2Proof/Machine/Control.lean ====
section
/-! DEFINITION. NOP, ABORT and the illegal words (40_command_dispatch.md R112 to R116). -/

namespace Sys2Proof.Machine

/-- NOP: no state changes in any phase (40_command_dispatch.md R112). -/
def execNop (s : State) : Outcome := .next s

/-- `abort_run()` (40_command_dispatch.md R113): the run ends with ABORTED; every other register keeps its value. -/
def abortRun (s : State) : State := { s with status := s.status.abortRun }

/-- ABORT: while BUSY it ends the run, in IDLE it only clears the report, in HALTED it is ignored (40_command_dispatch.md
R110, R113, R116). -/
def execAbort (s : State) : Outcome := .next (gate abortRun clearReport s)

/-- A CMD write of an illegal word (30_encoding.md R95): ILLEGAL_COMMAND in IDLE (40_command_dispatch.md R115), dropped while
BUSY (R114), ignored in HALTED (R116). -/
def commandIllegal (s : State) : State := acceptIdle (raiseError .illegalCommand 0) s

end Sys2Proof.Machine
end

