-- ==== Sys2Proof/Machine/Enforcer.lean ====
section
/-! DEFINITION. The run-length enforcer: run tracking and the CHECK step (44_run_length_enforcer.md). -/

namespace Sys2Proof.Machine

/-- The larger of two 64-bit unsigned values (44_run_length_enforcer.md R190). -/
def countMax (a b : Count) : Count := if a.toNat < b.toNat then b else a

/-- The smaller of two 64-bit unsigned values (44_run_length_enforcer.md R190). -/
def countMin (a b : Count) : Count := if b.toNat < a.toNat then b else a

/-- `enforcer_update(b)` (44_run_length_enforcer.md R190). -/
def Enforcer.update (b : Bool) (e : Enforcer) : Enforcer :=
  if !e.hasRun then { e with curVal := b, rlCurLen := 1, hasRun := true }
  else if b == e.curVal then { e with rlCurLen := e.rlCurLen + 1 }
  else
    { e with
      rlMax := countMax e.rlMax e.rlCurLen
      rlMin := countMin e.rlMin e.rlCurLen
      curVal := b
      rlCurLen := 1 }

/-- The CHECK step closes the final group (44_run_length_enforcer.md R192). -/
def Enforcer.close (e : Enforcer) : Enforcer :=
  if e.hasRun then { e with rlMax := countMax e.rlMax e.rlCurLen, rlMin := countMin e.rlMin e.rlCurLen } else e

/-- `RL_MAX = Tmax` once the last group is closed, as integers (44_run_length_enforcer.md R192). -/
def okMax (s : State) : Bool := decide ((s.enf.close.rlMax.toNat : Int) = sint32 s.latched.pTmax)

/-- `RL_MIN = Tmin` once the last group is closed, as integers (44_run_length_enforcer.md R192). -/
def okMin (s : State) : Bool := decide ((s.enf.close.rlMin.toNat : Int) = sint32 s.latched.pTmin)

/-- `check_step()` (44_run_length_enforcer.md R192): close the last group, compare with the latched bounds, and end the run in
DONE (R193) or in HALTED (R194). -/
def checkStep (s : State) : State :=
  { s with
    enf := s.enf.close
    status := if okMax s && okMin s then s.status.pass else s.status.violate (okMax s) (okMin s) }

end Sys2Proof.Machine
end

