-- ==== Sys2Proof/Machine/Lfsr.lean ====
section
/-! DEFINITION. The LFSR: its step function, LOAD_STATE and STEP (42_lfsr_engine.md). -/

namespace Sys2Proof.Machine

/-- The feedback bit: XOR of the bits at the tap positions (42_lfsr_engine.md R151). -/
def feedback (s taps : Bits31) : Bool := parity (s &&& taps)

/-- The state after one step: shift toward the output end, the feedback bit enters position 1 (42_lfsr_engine.md R151). -/
def lfsrNext (s : Bits31) (n : Nat) (taps : Bits31) : Bits31 :=
  ((s <<< 1) &&& lowMask n) ||| (BitVec.ofBool (feedback s taps)).setWidth 31

/-- `lfsr_step(s, n, M)`: the new state and the bit shifted out of the output end (42_lfsr_engine.md R151). -/
def lfsrStep (s : Bits31) (n : Nat) (taps : Bits31) : Bits31 × Bool := (lfsrNext s n taps, topBit n s)

/-- The LFSR's registers after one step counted by STEP_CNT, which wraps modulo 2^32 (42_lfsr_engine.md R159). -/
def LfsrRegs.stepOnce (n : Nat) (taps : Bits31) (r : LfsrRegs) : LfsrRegs :=
  { r with
    state := (lfsrStep r.state n taps).1
    lastOut := (lfsrStep r.state n taps).2
    stepCnt := r.stepCnt + 1 }

/-- `load_state()` (42_lfsr_engine.md R158). -/
def loadState (s : State) : State :=
  if s.sel.width = 0 then raiseError .notConfigured 0 s
  else if loadValue s.sel.width.toNat s.host.stateWr = 0 then raiseError .zeroState 0 s
  else { s with lfsr := { s.lfsr with state := loadValue s.sel.width.toNat s.host.stateWr, stepCnt := 0 } }

/-- LOAD_STATE (42_lfsr_engine.md R158). -/
def execLoadState (s : State) : Outcome := .next (acceptIdle loadState s)

/-- `step_cmd()` (42_lfsr_engine.md R159). -/
def stepCmd (s : State) : State :=
  if s.sel.width = 0 then raiseError .notConfigured 0 s
  else if s.lfsr.state = 0 then raiseError .zeroState 0 s
  else { s with lfsr := s.lfsr.stepOnce s.sel.width.toNat s.sel.taps }

/-- STEP (42_lfsr_engine.md R159). -/
def execStep (s : State) : Outcome := .next (acceptIdle stepCmd s)

end Sys2Proof.Machine
end

