-- ==== Sys2Proof/Machine/Selector.lean ====
section
/-! DEFINITION. Parameter validation, width selection and SELECT (41_width_selector.md). -/

namespace Sys2Proof.Machine

/-- The latch that begins validation (41_width_selector.md R130). -/
def latchParams (s : State) : State :=
  { s with latched := { pTmax := s.host.tmax, pTmin := s.host.tmin, pMode := s.host.initMode } }

/-- `clear_derived()`: every per-call register takes its empty value (41_width_selector.md R131). -/
def clearDerived (s : State) : State :=
  { s with sel := .reset, lfsr := .reset, sampleCnt := 0, enf := .reset }

/-- The checks before the width is computed, in their order: the first that fails names the error (41_width_selector.md R130,
R132, R134). `a` is Tmax, `b` is Tmin. -/
def paramError (a b : Int) (mode : Word) : Option (ErrCode × BitVec 2) :=
  if a < 2 then some (.outOfRange, 1)
  else if b < 1 then some (.outOfRange, 2)
  else if b ≥ a then some (.outOfRange, 3)
  else if mode ≠ modeRandom ∧ mode ≠ modeOnes then some (.unsupportedOption, 0)
  else none

/-- WIDTH_CALC takes the computed width, in range or not (41_width_selector.md R135). -/
def setWidthCalc (c : Nat) (s : State) : State := { s with sel.widthCalc := BitVec.ofNat 32 c }

/-- A successful selection of width `c` with Tmin = `b` (41_width_selector.md R137). -/
def setSelection (c b : Nat) (s : State) : State :=
  { s with sel := { s.sel with
      width := BitVec.ofNat 5 c
      taps := tapRom c
      period := BitVec.ofNat 31 (2 ^ c - 1)
      len := BitVec.ofNat 64 ((2 ^ c - 1) * b) } }

/-- The width check and the selection (41_width_selector.md R135 to R137). -/
def selectWidth (a b : Nat) (s : State) : Bool × State :=
  let c := ceilDiv a b
  let s := setWidthCalc c s
  if c < 2 ∨ c > 31 then (false, raiseError .configurationError 0 s)
  else (true, setSelection c b s)

/-- `validate()`: latch, clear, check in order, select the width; `false` when an error was raised (41_width_selector.md
R130). -/
def validate (s : State) : Bool × State :=
  let s := clearDerived (latchParams s)
  let a := sint32 s.latched.pTmax
  let b := sint32 s.latched.pTmin
  match paramError a b s.latched.pMode with
  | some (code, detail) => (false, raiseError code detail s)
  | none => selectWidth a.toNat b.toNat s

/-- SELECT: validation alone; the phase stays IDLE (41_width_selector.md R138). -/
def execSelect (s : State) : Outcome := .next (acceptIdle (fun s => (validate s).2) s)

end Sys2Proof.Machine
end

