-- ==== Sys2Proof/Machine/Generator.lean ====
section
/-! DEFINITION. GENERATE, the SEED and RUN steps, and which core step a cycle runs (43_prbs_generator.md). -/

namespace Sys2Proof.Machine

/-- The run starts: BUSY, PHASE = SEED, and a new, empty stream (43_prbs_generator.md R170). -/
def startRun (s : State) : State := { s with status := s.status.startRun, out := [] }

/-- `generate()` (43_prbs_generator.md R170). -/
def generate (s : State) : State := if (validate s).1 then startRun (validate s).2 else (validate s).2

/-- GENERATE (43_prbs_generator.md R170). -/
def execGenerate (s : State) : Outcome := .next (acceptIdle generate s)

/-- The end of `seed_step()`: STATE and SEED take the seed, PHASE becomes RUN (43_prbs_generator.md R172). -/
def setSeed (v : Bits31) (s : State) : State :=
  { s with lfsr := { s.lfsr with state := v, seed := v }, status.phase := .run }

/-- `seed_step()` (43_prbs_generator.md R172). With Ones it runs in every cycle; with Random it runs when a value is offered,
and a value whose low WIDTH bits are 0 is discarded. With any other P_MODE, which no run reaches, it is not enabled (log 9). -/
def seedStep (rng : Option Bits31) (s : State) : State :=
  if s.latched.pMode = modeOnes then setSeed (lowMask s.sel.width.toNat) s
  else if s.latched.pMode = modeRandom then
    match rng with
    | none => s
    | some draw =>
      if lowBits s.sel.width.toNat draw = 0 then s else setSeed (lowBits s.sel.width.toNat draw) s
  else s

/-- Whether sample SAMPLE_CNT is the first copy of a new raw bit: `SAMPLE_CNT mod Tmin = 0` (43_prbs_generator.md R174). -/
def firstCopy (s : State) : Bool := remainder s.sampleCnt.toNat (sint32 s.latched.pTmin) == 0

/-- Whether sample SAMPLE_CNT is the final one: `SAMPLE_CNT + 1 = LEN` (43_prbs_generator.md R174). -/
def finalSample (s : State) : Bool := s.sampleCnt.toNat + 1 == s.sel.len.toNat

/-- The LFSR half of a RUN step: it steps when a new raw bit is due, and then LAST_OUT is the sample (43_prbs_generator.md
R174). -/
def advanceLfsr (s : State) : LfsrRegs :=
  if firstCopy s then s.lfsr.stepOnce s.sel.width.toNat s.sel.taps else s.lfsr

/-- `run_step()` (43_prbs_generator.md R174): one sample is emitted and tracked. -/
def runStep (s : State) : State :=
  { s with
    lfsr := advanceLfsr s
    out := s.out ++ [{ val := (advanceLfsr s).lastOut, last := finalSample s }]
    enf := s.enf.update (advanceLfsr s).lastOut
    sampleCnt := s.sampleCnt + 1
    status := if finalSample s then { s.status with phase := .check } else s.status }

/-- The core step enabled in a cycle, if any (43_prbs_generator.md R171, R172, R174; 44_run_length_enforcer.md R192). -/
def coreStep (c : CycleIn) (s : State) : State :=
  match s.status.phase with
  | .idle => s
  | .seed => seedStep c.rng s
  | .run => if c.sReady then runStep s else s
  | .check => checkStep s
  | .halted => s

end Sys2Proof.Machine
end

