-- ==== Sys2Proof/Machine/Dispatch.lean ====
section
/-! DEFINITION. What a legal command does when its CMD write is performed (40_command_dispatch.md R110): one arm per command. -/

namespace Sys2Proof.Machine

def exec (i : Instr) (s : State) : Host.Outcome State Fault Refusal :=
  match i with
  | .nop => Sys2Proof.Machine.execNop s
  | .generate => Sys2Proof.Machine.execGenerate s
  | .abort => Sys2Proof.Machine.execAbort s
  | .select => Sys2Proof.Machine.execSelect s
  | .loadState => Sys2Proof.Machine.execLoadState s
  | .step => Sys2Proof.Machine.execStep s

end Sys2Proof.Machine
end

