-- ==== Sys2Proof/Machine/Ports.lean ====
section
/-! DEFINITION. The block's outputs as functions of its state (10_state.md R53, R54; 00_scope.md R4). -/

namespace Sys2Proof.Machine

/-- `s_valid` (10_state.md R53). -/
def sValid (s : State) : Bool := s.status.phase == .run

/-- `s_data` (10_state.md R53). Where P_TMIN < 1 or WIDTH = 0, as after reset, it is a free value (log 6, log 7). -/
def sData (s : State) : Bool :=
  if firstCopy s then topBit s.sel.width.toNat s.lfsr.state else s.lfsr.lastOut

/-- `s_last` (10_state.md R53). -/
def sLast (s : State) : Bool := sValid s && finalSample s

/-- `rng_ready` (10_state.md R54). -/
def rngReady (s : State) : Bool := s.status.phase == .seed && s.latched.pMode == modeRandom

/-- `reg_rdata` in a cycle that reads word `a`: the value before the cycle's updates (00_scope.md R4). -/
def regRdata (a : Index) (s : State) : Word := readWord a s

end Sys2Proof.Machine
end

