-- ==== Sys2Proof/Machine/Cycle.lean ====
section
/-! DEFINITION. One clock cycle: its inputs, the host access, and the fixed order reset, core step, host access
(20_memory.md R71; log 1). -/

namespace Sys2Proof.Machine

/-- The inputs of this cycle: the next listed ones, or a free value when none is listed (10_state.md R24; log 2). -/
def nextInput (s : State) : CycleIn :=
  match s.inputs with
  | c :: _ => c
  | [] => Config.freeInput s.cycle

/-- This cycle's inputs are taken and the cycle is counted. -/
def takeInput (s : State) : State := { s with inputs := s.inputs.tail, cycle := s.cycle + 1 }

/-- A host write of `w` to CMD: a legal word is its command, any other is an illegal word (10_state.md R26,
40_command_dispatch.md R110). -/
def command (w : Word) (s : State) : Outcome :=
  match decode w with
  | .ok i => exec i s
  | .error _ => .next (commandIllegal s)

/-- A host write `MemWrite(a, 4, v)` (20_memory.md R62). -/
def busWrite (a : Index) (v : Word) (s : State) : Outcome :=
  if regAt a = some .cmd then command v s else .next (writeWord a v s)

/-- The host access of a cycle, if any. `before` is the state before the cycle's updates, which a read sees; `s` is the state
the core step leaves (20_memory.md R71). -/
def hostAccess (bus : Option BusTxn) (before s : State) : Outcome :=
  match bus with
  | none => .next s
  | some t => if t.we then busWrite t.addr t.data s else .next (recordRead t.addr (regRdata t.addr before) s)

/-- A cycle with `rst` = 1: neither the core step nor a host write happens; a host read returns the value before the cycle
(70_reset_and_hazards.md R240). -/
def resetCycle (bus : Option BusTxn) (s : State) : State :=
  match bus with
  | none => resetBlock s
  | some t => if t.we then resetBlock s else recordRead t.addr (regRdata t.addr s) (resetBlock s)

/-- One clock cycle with inputs `c` (20_memory.md R71). -/
def runCycle (c : CycleIn) (s : State) : Outcome :=
  if c.rst then .next (resetCycle c.bus s) else hostAccess c.bus s (coreStep c s)

/-- The inputs of a cycle in which the host writes `w` to CMD, the consumer waits and no entropy is offered. -/
def commandCycle (w : Word) : CycleIn :=
  { rst := false, bus := some { we := true, addr := RegName.cmd.index, data := w }, sReady := false, rng := none }

end Sys2Proof.Machine
end

