-- ==== Sys2Proof/Machine/Step.lean ====
section
/-! DEFINITION. One step of the machine: one clock cycle (log 1). -/

namespace Sys2Proof.Machine

/-- One step: the next cycle's inputs are taken and the cycle runs (20_memory.md R71). -/
def step (s : State) : Host.Outcome State Fault Refusal := runCycle (nextInput s) (takeInput s)

/-- `s` with a cycle put first in which the host writes the command word `w` to CMD. The block fetches no instruction
(20_memory.md R76): a command comes in by a CMD write alone (log 3). The bits of `w` above `nbits` are 0. -/
def State.withFetchWord (s : State) (nbits w : Nat) : State :=
  { s with inputs := commandCycle (BitVec.ofNat 32 (w % 2 ^ nbits)) :: s.inputs }

end Sys2Proof.Machine
end

