-- ==== Sys2Proof/Machine/HostProgram.lean ====
section
/-! DEFINITION. Host programs: the transactions a line stands for (30_encoding.md R96, R97), and a program run beside the block,
one transaction a cycle, with the directives' consumer and entropy source (log 15). -/

namespace Sys2Proof.Machine

/-- `wr REG, imm` as a transaction (30_encoding.md R96). -/
def wrTxn (r : RegName) (imm : Int) : BusTxn := { we := true, addr := r.index, data := BitVec.ofInt 32 imm }

/-- `rd REG` as a transaction (30_encoding.md R96). -/
def rdTxn (r : RegName) : BusTxn := { we := false, addr := r.index, data := 0 }

/-- The transactions an operation expands to (30_encoding.md R97). A `wait` is a loop of the one shown; a directive is no
transaction. -/
def hostTxns : HostOp → List BusTxn
  | .wr r imm => [wrTxn r imm]
  | .rd r _ => [rdTxn r]
  | .cmd i => [{ we := true, addr := RegName.cmd.index, data := encode i }]
  | .cfg a b m => [wrTxn .tmax a, wrTxn .tmin b, wrTxn .initMode m]
  | .wait => [rdTxn .status]
  | .drain => []
  | .rng _ => []

/-- A host program and its environment beside the block. -/
structure Bench where
  st : State
  prog : List HostOp
  /-- The consumer holds `s_ready` = 1 (30_encoding.md R97, `drain`). -/
  drained : Bool
  /-- The entropy values still to be offered, in order (30_encoding.md R97, `rng`). -/
  draws : List Bits31
  /-- The names bound by reads, latest first. -/
  names : List (String × Word)
deriving DecidableEq, Repr

/-- The start of every program of 95_test_vectors.md: reset, `s_ready` = 0, `rng_valid` = 0. -/
def Bench.start (prog : List HostOp) : Bench :=
  { st := .reset, prog := prog, drained := false, draws := [], names := [] }

/-- The directives at the head of a program take effect at once. -/
def directives : List HostOp → Bool → List Bits31 → List HostOp × Bool × List Bits31
  | .drain :: p, _, ds => directives p true ds
  | .rng xs :: p, d, ds => directives p d (ds ++ xs.map (BitVec.ofNat 31))
  | p, d, ds => (p, d, ds)

/-- The transaction a program issues in a cycle in state `s`, the name it binds, and the program that remains. A `wait` stays
while the STATUS it reads has BUSY = 1 (30_encoding.md R97). -/
def issue (s : State) : List HostOp → Option BusTxn × Option String × List HostOp
  | [] => (none, none, [])
  | .wr r imm :: p => (some (wrTxn r imm), none, p)
  | .rd r name :: p => (some (rdTxn r), name, p)
  | .cmd i :: p => (some { we := true, addr := RegName.cmd.index, data := encode i }, none, p)
  | .cfg a b m :: p => (some (wrTxn .tmax a), none, .wr .tmin b :: .wr .initMode m :: p)
  | .wait :: p =>
    (some (rdTxn .status), some "t", if (regRdata RegName.status.index s).getLsbD 0 then .wait :: p else p)
  | .drain :: p => (none, none, p)
  | .rng _ :: p => (none, none, p)

/-- The inputs the program, the consumer and the entropy source give the block in a cycle, and the bench after them. -/
def Bench.inputs (b : Bench) : CycleIn × Bench :=
  let (p, d, ds) := directives b.prog b.drained b.draws
  let (txn, name, rest) := issue b.st p
  ({ rst := false, bus := txn, sReady := d, rng := ds.head? },
   { b with
     prog := rest
     drained := d
     draws := if rngReady b.st then ds.tail else ds
     names := match name, txn with
       | some x, some t => (x, regRdata t.addr b.st) :: b.names
       | _, _ => b.names })

/-- One cycle of the block under a program; a machine that stops leaves the bench as it is. -/
def Bench.cycle (b : Bench) : Bench :=
  match step { b.st with inputs := [b.inputs.1] } with
  | .next t => { b.inputs.2 with st := t }
  | .fault _ => b
  | .refused _ => b

end Sys2Proof.Machine
end

