-- ==== Sys2Proof/Safety.lean ====
section
/-! DEFINITION. The terms claims are stated in: the raw sequence of the LFSR (42_lfsr_engine.md R153), the grouping of a stream
(44_run_length_enforcer.md R191), the invariants of the block (10_state.md R34, R56; 43_prbs_generator.md R176), reachable
states, and what counts as a safe run and as a result. -/

namespace Sys2Proof.Machine

/-- The state after `k` steps from `s` (43_prbs_generator.md R176). -/
def lfsrIter (n : Nat) (taps : Bits31) (s : Bits31) : Nat → Bits31
  | 0 => s
  | k + 1 => lfsrNext (lfsrIter n taps s k) n taps

/-- The raw output `a_k`: the output of step k+1 from `s` (42_lfsr_engine.md R153). -/
def rawBit (n : Nat) (taps : Bits31) (s : Bits31) (k : Nat) : Bool := topBit n (lfsrIter n taps s k)

/-- The maximal groups of equal consecutive values with their lengths, in order; linear, the last and the first are never
joined (44_run_length_enforcer.md R191). -/
def groups : List Bool → List (Bool × Nat)
  | [] => []
  | b :: l =>
    match groups l with
    | [] => [(b, 1)]
    | (v, k) :: r => if v = b then (v, k + 1) :: r else (b, 1) :: (v, k) :: r

/-- The lengths of the groups (44_run_length_enforcer.md R191). -/
def runLengths (l : List Bool) : List Nat := (groups l).map Prod.snd

/-- The maximum, 0 of no values (44_run_length_enforcer.md R191). -/
def maxOf (l : List Nat) : Nat := l.foldr max 0

/-- The minimum, 2^64 - 1 of no values (44_run_length_enforcer.md R191). -/
def minOf (l : List Nat) : Nat := l.foldr min (2 ^ 64 - 1)

/-- The enforcer's registers hold the grouping of the samples `l` (44_run_length_enforcer.md R191). -/
def Enforcer.Holds (e : Enforcer) (l : List Bool) : Prop :=
  if l = [] then e = .reset
  else
    e.hasRun = true ∧ l.getLast? = some e.curVal ∧ (runLengths l).getLast? = some e.rlCurLen.toNat
      ∧ e.rlMax.toNat = maxOf (runLengths l).dropLast ∧ e.rlMin.toNat = minOf (runLengths l).dropLast

/-- The enforcer's registers after the samples `l`, from their empty values (44_run_length_enforcer.md R190). -/
def Enforcer.track (l : List Bool) : Enforcer := l.foldl (fun e b => e.update b) .reset

/-- Tmax of the latched parameters (30_encoding.md R94). -/
def State.tmax (s : State) : Int := sint32 s.latched.pTmax

/-- Tmin of the latched parameters (30_encoding.md R94). -/
def State.tmin (s : State) : Int := sint32 s.latched.pTmin

/-- The values of OUT (20_memory.md R63). -/
def State.outVals (s : State) : List Bool := s.out.map Sample.val

/-- The STATUS invariants (10_state.md R34), with what makes them inductive: a run has no error yet, TYPE_MISMATCH is never
produced (60_exceptions.md R211). -/
structure StatusInv (f : Status) : Prop where
  busy_iff : f.busy = true ↔ f.phase = .seed ∨ f.phase = .run ∨ f.phase = .check
  fatal_iff : f.fatal = true ↔ f.phase = .halted
  fatal_error : f.fatal = true → f.error = true ∧ f.errCode = .internalInvariantViolation
  done_clean : f.done = true → f.error = false ∧ f.phase = .idle
  no_error_no_code : f.error = false → f.errCode = .noError ∧ f.errDetail = 0
  run_clean : f.busy = true → f.error = false
  no_type_mismatch : f.errCode ≠ .typeMismatch

/-- A selected width and what goes with it (10_state.md R38, R56; 41_width_selector.md R132, R134 to R137). -/
structure Selected (s : State) : Prop where
  width_ge : 2 ≤ s.sel.width.toNat
  calc_eq : s.sel.widthCalc.toNat = s.sel.width.toNat
  taps_eq : s.sel.taps = tapRom s.sel.width.toNat
  period_eq : s.sel.period.toNat = 2 ^ s.sel.width.toNat - 1
  tmin_pos : 1 ≤ s.tmin
  tmin_lt : s.tmin < s.tmax
  mode_legal : s.latched.pMode = modeRandom ∨ s.latched.pMode = modeOnes
  width_eq : s.sel.width.toNat = ceilDiv s.tmax.toNat s.tmin.toNat
  len_eq : (s.sel.len.toNat : Int) = (2 ^ s.sel.width.toNat - 1) * s.tmin

/-- The width, LFSR and length registers agree in every state, run or not (10_state.md R56). -/
structure SelectionInv (s : State) : Prop where
  state_lt : s.lfsr.state.toNat < 2 ^ s.sel.width.toNat
  selected : s.sel.width ≠ 0 → Selected s
  unselected : s.sel.width = 0 → s.lfsr.state = 0 ∧ s.sel.taps = 0 ∧ s.sel.period = 0 ∧ s.sel.len = 0

/-- The counts never pass LEN, run or not (20_memory.md R67). -/
structure CountsLe (s : State) : Prop where
  cnt_le : s.sampleCnt.toNat ≤ s.sel.len.toNat
  cur_le : s.enf.rlCurLen.toNat ≤ s.sel.len.toNat
  max_le : s.enf.rlMax.toNat ≤ s.sel.len.toNat

/-- The samples of OUT are the raw sequence from SEED, each bit Tmin times, with `s_last` on sample LEN - 1 alone
(43_prbs_generator.md R175). -/
def StreamOk (s : State) : Prop :=
  ∀ k, k < s.out.length →
    s.out[k]? = some {
      val := rawBit s.sel.width.toNat s.sel.taps s.lfsr.seed (k / s.tmin.toNat)
      last := decide (k + 1 = s.sel.len.toNat) }

/-- The seed of a run: nonzero, WIDTH bits, all ones in Ones mode (42_lfsr_engine.md R155). -/
structure SeedOk (s : State) : Prop where
  seed_ne : s.lfsr.seed ≠ 0
  seed_lt : s.lfsr.seed.toNat < 2 ^ s.sel.width.toNat
  seed_ones : s.latched.pMode = modeOnes → s.lfsr.seed = lowMask s.sel.width.toNat

/-- A run after SAMPLE_CNT accepted samples (43_prbs_generator.md R176). -/
structure Running (s : State) : Prop where
  width_ne : s.sel.width ≠ 0
  seed_ok : SeedOk s
  cnt_le : s.sampleCnt.toNat ≤ s.sel.len.toNat
  steps_eq : s.lfsr.stepCnt.toNat = ceilDiv s.sampleCnt.toNat s.tmin.toNat
  state_eq : s.lfsr.state = lfsrIter s.sel.width.toNat s.sel.taps s.lfsr.seed s.lfsr.stepCnt.toNat
  last_eq : s.lfsr.lastOut =
    if s.lfsr.stepCnt.toNat = 0 then false
    else rawBit s.sel.width.toNat s.sel.taps s.lfsr.seed (s.lfsr.stepCnt.toNat - 1)
  out_length : s.out.length = s.sampleCnt.toNat
  stream : StreamOk s
  enf_eq : s.enf = .track s.outVals
  enf_holds : s.enf.Holds s.outVals

/-- A run before its seed is chosen (41_width_selector.md R131, 43_prbs_generator.md R172). -/
structure Seeding (s : State) : Prop where
  width_ne : s.sel.width ≠ 0
  lfsr_empty : s.lfsr = .reset
  cnt_zero : s.sampleCnt = 0
  enf_empty : s.enf = .reset
  out_empty : s.out = []

/-- A run that was checked (43_prbs_generator.md R177; 44_run_length_enforcer.md R191 to R194): PERIOD steps, the full stream,
and RL_MAX and RL_MIN over all of it. -/
structure Checked (s : State) : Prop where
  width_ne : s.sel.width ≠ 0
  seed_ok : SeedOk s
  cnt_eq : s.sampleCnt = s.sel.len
  steps_eq : s.lfsr.stepCnt.toNat = s.sel.period.toNat
  state_eq : s.lfsr.state = lfsrIter s.sel.width.toNat s.sel.taps s.lfsr.seed s.sel.period.toNat
  last_eq : s.lfsr.lastOut = rawBit s.sel.width.toNat s.sel.taps s.lfsr.seed (s.sel.period.toNat - 1)
  out_length : s.out.length = s.sel.len.toNat
  stream : StreamOk s
  enf_eq : s.enf = (Enforcer.track s.outVals).close
  max_eq : s.enf.rlMax.toNat = maxOf (runLengths s.outVals)
  min_eq : s.enf.rlMin.toNat = minOf (runLengths s.outVals)

/-- The invariant of the block (10_state.md R34, R56; 43_prbs_generator.md R176; 44_run_length_enforcer.md R191 to R194). -/
structure State.Inv (s : State) : Prop where
  status : StatusInv s.status
  selection : SelectionInv s
  counts : CountsLe s
  seeding : s.status.phase = .seed → Seeding s
  running : s.status.phase = .run ∨ s.status.phase = .check → Running s
  run_more : s.status.phase = .run → s.sampleCnt.toNat < s.sel.len.toNat
  check_all : s.status.phase = .check → s.sampleCnt = s.sel.len
  checked : s.status.done = true ∨ s.status.phase = .halted → Checked s
  done_exact : s.status.done = true → (s.enf.rlMax.toNat : Int) = s.tmax ∧ (s.enf.rlMin.toNat : Int) = s.tmin
  halted_inexact : s.status.phase = .halted → ¬((s.enf.rlMax.toNat : Int) = s.tmax ∧ (s.enf.rlMin.toNat : Int) = s.tmin)
  halted_detail : s.status.phase = .halted →
    s.status.errDetail =
      violationDetail (decide ((s.enf.rlMax.toNat : Int) = s.tmax)) (decide ((s.enf.rlMin.toNat : Int) = s.tmin))

/-- The block takes a command: PHASE = IDLE and not BUSY (40_command_dispatch.md R110). -/
structure State.Idle (s : State) : Prop where
  phase_idle : s.status.phase = .idle
  not_busy : s.status.busy = false

/-- A run is under way: BUSY, in SEED, RUN or CHECK (10_state.md R31). -/
structure State.Busy (s : State) : Prop where
  phase_run : s.status.phase = .seed ∨ s.status.phase = .run ∨ s.status.phase = .check
  is_busy : s.status.busy = true

/-- What an accepted SELECT or GENERATE makes of a state before its first check: the report is cleared (40_command_dispatch.md
R111), the parameters are latched (41_width_selector.md R130), every per-call register is empty (R131). -/
def State.fresh (s : State) : State :=
  { s with
    status := { s.status with done := false, error := false, dropped := false, errCode := .noError, errDetail := 0 }
    latched := { pTmax := s.host.tmax, pTmin := s.host.tmin, pMode := s.host.initMode }
    sel := { widthCalc := 0, width := 0, taps := 0, period := 0, len := 0 }
    lfsr := { state := 0, seed := 0, lastOut := false, stepCnt := 0 }
    sampleCnt := 0
    enf := { rlMax := 0, rlMin := 0xFFFFFFFFFFFFFFFF, rlCurLen := 0, curVal := false, hasRun := false } }

/-- A state with an error reported: ERROR = 1 and the code and detail (60_exceptions.md R212), all else as it was. -/
def State.reporting (s : State) (code : ErrCode) (detail : BitVec 2) : State :=
  { s with status := { s.status with error := true, errCode := code, errDetail := detail } }

/-- A pair that passes validation: Tmax = a, Tmin = b, and c the least integer with c * b ≥ a, in 2..31 (00_scope.md R7;
41_width_selector.md R132, R134 to R137). -/
structure Accepted (s : State) (a b c : Nat) : Prop where
  tmax_eq : sint32 s.host.tmax = a
  tmin_eq : sint32 s.host.tmin = b
  tmin_pos : 1 ≤ b
  tmin_lt : b < a
  mode_legal : s.host.initMode = 0 ∨ s.host.initMode = 1
  ceil_ge : a ≤ c * b
  ceil_least : (c - 1) * b < a
  width_le : c ≤ 31

/-- The inputs of a cycle with no reset and no host access. -/
def quiet (sReady : Bool) (rng : Option Bits31) : CycleIn := { rst := false, bus := none, sReady := sReady, rng := rng }

/-- The reset state before an environment that gives the cycles `ins` first (70_reset_and_hazards.md R242). -/
def State.start (ins : List CycleIn) : State := { State.reset with inputs := ins }

/-- The states of the machine from reset, under every environment. -/
inductive Reachable : State → Prop where
  | start (ins : List CycleIn) : Reachable (State.start ins)
  | step {s t : State} (hs : Reachable s) (h : Machine.step s = .next t) : Reachable t

/-- A safe state: not the fatal state (40_command_dispatch.md R116; D14: "a model must treat HALTED as a fault state"). -/
def State.safe (s : State) : Bool := s.status.phase != .halted && !s.status.fatal

/-- The result of a run: the stream, only while DONE = 1 (20_memory.md R73). -/
def State.result (s : State) : Option (List Bool) := if s.status.done then some s.outVals else none

end Sys2Proof.Machine
end

