-- ==== Sys2Proof/Certificates/Slice0/Obligations.lean ====
section
/-! DEFINITION. The statements for the provers, in the spec's order: encoding, register file, commands, core steps, run-length
enforcer, reset, whole-machine rules, invariants, and what a run is worth. -/

open Sys2Proof Sys2Proof.Machine

/-! ### Encoding -/

/-- 30_encoding.md R91, R92, R95: of all 2^32 words exactly 0 to 5 are legal, and they are the six commands in this order. -/
def Obligations.LegalWordsAreZeroToFive : Prop :=
  ∀ w : Word,
    (decode w = .ok .nop ↔ w.toNat = 0) ∧ (decode w = .ok .generate ↔ w.toNat = 1)
      ∧ (decode w = .ok .abort ↔ w.toNat = 2) ∧ (decode w = .ok .select ↔ w.toNat = 3)
      ∧ (decode w = .ok .loadState ↔ w.toNat = 4) ∧ (decode w = .ok .step ↔ w.toNat = 5)
      ∧ ((∃ e, decode w = .error e) ↔ 6 ≤ w.toNat)

/-- 30_encoding.md R92 and the words V-ENC-01 to V-ENC-12 of 95_test_vectors.md, written out. The spec says of the last six that
they are illegal and no more: which of the decoder's two names for it each gets, and that `reservedBits` goes first where both
conditions of R95 hold, are the model's own (log 12). -/
def Obligations.CommandWordsDecodeAsTabled : Prop :=
  decode 0x00000000 = .ok .nop ∧ decode 0x00000001 = .ok .generate ∧ decode 0x00000002 = .ok .abort
    ∧ decode 0x00000003 = .ok .select ∧ decode 0x00000004 = .ok .loadState ∧ decode 0x00000005 = .ok .step
    ∧ decode 0x00000006 = .error .reservedOpcode ∧ decode 0x0000000F = .error .reservedOpcode
    ∧ decode 0x00000010 = .error .reservedBits ∧ decode 0x00000011 = .error .reservedBits
    ∧ decode 0x80000001 = .error .reservedBits ∧ decode 0xFFFFFFFF = .error .reservedBits

/-- 30_encoding.md R91, R92: decoding the command word of a well-formed command gives it back. -/
def Obligations.DecodeOfEncodeIsTheCommand : Prop :=
  ∀ i : Instr, i.wellFormed = true → decode (encode i) = .ok i

/-- 30_encoding.md R90: the 39-bit transaction word has WE in bit 38, ADDR in 37:32, DATA in 31:0, and loses nothing either
way. -/
def Obligations.TransactionWordRoundTrips : Prop :=
  (∀ t : BusTxn, t.encode.toNat = (if t.we then 2 ^ 38 else 0) + t.addr.toNat * 2 ^ 32 + t.data.toNat
      ∧ BusTxn.decode t.encode = t)
    ∧ ∀ w : BitVec 39, (BusTxn.decode w).encode = w

/-- 30_encoding.md R96, R97 and all of V-ENC-13 to V-ENC-20 in their order, then the `cmd` and `cfg` expansions. -/
def Obligations.HostLinesHaveTheirTransactionWords : Prop :=
  (hostTxns (.wr .tmax 3)).map BusTxn.encode = [0x4400000003#39]
    ∧ (hostTxns (.wr .tmax (-5))).map BusTxn.encode = [0x44FFFFFFFB#39]
    ∧ (hostTxns (.wr .cmd 1)).map BusTxn.encode = [0x4200000001#39]
    ∧ (hostTxns (.rd .status none)).map BusTxn.encode = [0x0300000000#39]
    ∧ (hostTxns (.rd .id none)).map BusTxn.encode = [0x0000000000#39]
    ∧ (hostTxns (.rd (.tapRom 31) none)).map BusTxn.encode = [0x3F00000000#39]
    ∧ (hostTxns (.wr .stateWr 8)).map BusTxn.encode = [0x4700000008#39]
    ∧ (hostTxns (.rd .rlMinHi none)).map BusTxn.encode = [0x1B00000000#39]
    ∧ (hostTxns (.cmd .generate)).map BusTxn.encode = [0x4200000001#39]
    ∧ (hostTxns (.cfg 3 1 1)).map BusTxn.encode = [0x4400000003#39, 0x4500000001#39, 0x4600000001#39]

/-! ### The register file -/

/-- 10_state.md R21, R52; 30_encoding.md R96: every name has the index R96 lists for it, the word at that index is that
register, and exactly the words 19 and 31 have no name. -/
def Obligations.RegisterMapIsExact : Prop :=
  (∀ r : RegName, regAt r.index = some r) ∧ (∀ a : Index, regAt a = none ↔ a.toNat = 19 ∨ a.toNat = 31)
    ∧ [RegName.id, .version, .cmd, .status, .tmax, .tmin, .initMode, .stateWr, .pTmax, .pTmin, .pMode, .widthCalc, .width, .taps,
        .period, .state, .seed, .lastOut, .stepCnt].map (fun r => r.index.toNat) = List.range 19
    ∧ [RegName.lenLo, .lenHi, .sampleCntLo, .sampleCntHi, .rlMaxLo, .rlMaxHi, .rlMinLo, .rlMinHi, .rlCurLenLo, .rlCurLenHi,
        .rlCur].map (fun r => r.index.toNat) = [20, 21, 22, 23, 24, 25, 26, 27, 28, 29, 30]
    ∧ ∀ w : BitVec 5, (RegName.tapRom w).index.toNat = 32 + w.toNat

/-- 10_state.md R25 to R50, R52; 20_memory.md R61: in every state the word at a register's index reads that register, a reserved
word reads 0, and each register of at most 32 bits reads its own quantity, the bits above its width 0. The 64-bit quantities are
LongQuantitiesReadAsTwoWords, the tap ROM is TapRomReadsTheTable. -/
def Obligations.EveryWordReadsItsRegister : Prop :=
  ∀ s : State,
    (∀ r : RegName, readWord r.index s = readReg r s) ∧ readWord 19 s = 0 ∧ readWord 31 s = 0
      ∧ readReg .id s = 0x50524253 ∧ readReg .version s = 0x00000001 ∧ readReg .cmd s = 0
      ∧ readReg .status s = s.status.word
      ∧ readReg .tmax s = s.host.tmax ∧ readReg .tmin s = s.host.tmin ∧ readReg .initMode s = s.host.initMode
      ∧ readReg .stateWr s = s.host.stateWr
      ∧ readReg .pTmax s = s.latched.pTmax ∧ readReg .pTmin s = s.latched.pTmin ∧ readReg .pMode s = s.latched.pMode
      ∧ readReg .widthCalc s = s.sel.widthCalc ∧ (readReg .width s).toNat = s.sel.width.toNat
      ∧ (readReg .taps s).toNat = s.sel.taps.toNat ∧ (readReg .period s).toNat = s.sel.period.toNat
      ∧ (readReg .state s).toNat = s.lfsr.state.toNat ∧ (readReg .seed s).toNat = s.lfsr.seed.toNat
      ∧ (readReg .lastOut s).toNat = s.lfsr.lastOut.toNat ∧ readReg .stepCnt s = s.lfsr.stepCnt
      ∧ (readReg .rlCur s).toNat = s.enf.curVal.toNat + 2 * s.enf.hasRun.toNat

/-- 10_state.md R30 to R32: the STATUS word, field by field, bits 31:14 reading 0; and the codes of the phases and of the
errors. -/
def Obligations.StatusWordHoldsItsFields : Prop :=
  (Phase.idle.code = 0 ∧ Phase.seed.code = 1 ∧ Phase.run.code = 2 ∧ Phase.check.code = 3 ∧ Phase.halted.code = 4)
    ∧ (ErrCode.noError.code = 0 ∧ ErrCode.typeMismatch.code = 1 ∧ ErrCode.outOfRange.code = 2
      ∧ ErrCode.unsupportedOption.code = 3 ∧ ErrCode.configurationError.code = 4
      ∧ ErrCode.internalInvariantViolation.code = 5 ∧ ErrCode.illegalCommand.code = 6 ∧ ErrCode.notConfigured.code = 7
      ∧ ErrCode.zeroState.code = 8 ∧ ErrCode.aborted.code = 9)
    ∧ ∀ f : Status,
      f.word.getLsbD 0 = f.busy ∧ f.word.getLsbD 1 = f.done ∧ f.word.getLsbD 2 = f.error ∧ f.word.getLsbD 3 = f.fatal
        ∧ f.word.extractLsb' 4 3 = f.phase.code ∧ f.word.getLsbD 7 = f.dropped
        ∧ f.word.extractLsb' 8 4 = f.errCode.code ∧ f.word.extractLsb' 12 2 = f.errDetail
        ∧ f.word.extractLsb' 14 18 = 0

/-- 20_memory.md R64: a 64-bit quantity reads as its low word at the lower offset and its high word at the next. -/
def Obligations.LongQuantitiesReadAsTwoWords : Prop :=
  ∀ s : State,
    (readReg .lenHi s).toNat * 2 ^ 32 + (readReg .lenLo s).toNat = s.sel.len.toNat
      ∧ (readReg .sampleCntHi s).toNat * 2 ^ 32 + (readReg .sampleCntLo s).toNat = s.sampleCnt.toNat
      ∧ (readReg .rlMaxHi s).toNat * 2 ^ 32 + (readReg .rlMaxLo s).toNat = s.enf.rlMax.toNat
      ∧ (readReg .rlMinHi s).toNat * 2 ^ 32 + (readReg .rlMinLo s).toNat = s.enf.rlMin.toNat
      ∧ (readReg .rlCurLenHi s).toNat * 2 ^ 32 + (readReg .rlCurLenLo s).toNat = s.enf.rlCurLen.toNat
      ∧ RegName.lenHi.index = RegName.lenLo.index + 1 ∧ RegName.sampleCntHi.index = RegName.sampleCntLo.index + 1
      ∧ RegName.rlMaxHi.index = RegName.rlMaxLo.index + 1 ∧ RegName.rlMinHi.index = RegName.rlMinLo.index + 1
      ∧ RegName.rlCurLenHi.index = RegName.rlCurLenLo.index + 1

/-- 41_width_selector.md R139, 10_state.md R51: the 32 words of the tap ROM, in every state. -/
def Obligations.TapRomReadsTheTable : Prop :=
  ∀ s : State, (List.range 32).map (fun w => readWord (BitVec.ofNat 6 (32 + w)) s) =
    [0x00000000#32, 0x00000000#32, 0x00000003#32, 0x00000005#32, 0x00000009#32, 0x00000012#32, 0x00000021#32, 0x00000041#32,
     0x0000008E#32, 0x00000108#32, 0x00000204#32, 0x00000402#32, 0x00000829#32, 0x0000100D#32, 0x000020A1#32, 0x00004001#32,
     0x00008805#32, 0x00010004#32, 0x00020040#32, 0x00040013#32, 0x00080004#32, 0x00100002#32, 0x00200001#32, 0x00400010#32,
     0x00800043#32, 0x01000004#32, 0x02000023#32, 0x04000013#32, 0x08000004#32, 0x10000002#32, 0x20400003#32, 0x40000004#32]

/-- 41_width_selector.md R140: the highest tap is the width, no bit at or above it is set, and the taps are even in number. -/
def Obligations.TapMasksFitTheirWidth : Prop :=
  ∀ w : Nat, 2 ≤ w → w ≤ 31 →
    (tapRom w).getLsbD (w - 1) = true ∧ (tapRom w).toNat < 2 ^ w ∧ parity (tapRom w) = false

/-- 20_memory.md R61, R71, 00_scope.md R4: in a cycle without reset that reads word `a`, the host gets the word's value before
the cycle's updates, and the read changes no register: the registers are those the core step leaves. -/
def Obligations.RegisterReadReturnsTheOldWord : Prop :=
  ∀ (s : State) (c : CycleIn) (cs : List CycleIn) (a : Index) (v : Word),
    s.inputs = c :: cs → c.rst = false → c.bus = some { we := false, addr := a, data := v } →
    let u := coreStep c { s with inputs := cs, cycle := s.cycle + 1 }
    Machine.step s = .next { u with reads := u.reads ++ [{ addr := a, value := readWord a s }] }

/-- 20_memory.md R62: in every phase a write to TMAX, TMIN, INIT_MODE or STATE_WR stores all 32 bits, a write to CMD executes
the word, and a write to any other word changes nothing; the core step of the cycle is undisturbed. -/
def Obligations.RegisterWriteStoresOrIsIgnored : Prop :=
  ∀ (s : State) (c : CycleIn) (cs : List CycleIn) (a : Index) (v : Word),
    s.inputs = c :: cs → c.rst = false → c.bus = some { we := true, addr := a, data := v } →
    let u := coreStep c { s with inputs := cs, cycle := s.cycle + 1 }
    (a.toNat = 4 → Machine.step s = .next { u with host := { u.host with tmax := v } })
      ∧ (a.toNat = 5 → Machine.step s = .next { u with host := { u.host with tmin := v } })
      ∧ (a.toNat = 6 → Machine.step s = .next { u with host := { u.host with initMode := v } })
      ∧ (a.toNat = 7 → Machine.step s = .next { u with host := { u.host with stateWr := v } })
      ∧ (a.toNat = 2 → Machine.step s = command v u)
      ∧ (a.toNat ≠ 2 → a.toNat ≠ 4 → a.toNat ≠ 5 → a.toNat ≠ 6 → a.toNat ≠ 7 → Machine.step s = .next u)

/-! ### Commands -/

/-- 40_command_dispatch.md R110, 20_memory.md R71: a cycle without reset in which the host writes a legal word to CMD runs that
command, on the state the core step of the cycle leaves. -/
def Obligations.StepRunsTheWrittenCommand : Prop :=
  ∀ (s : State) (c : CycleIn) (cs : List CycleIn) (w : Word) (i : Instr),
    s.inputs = c :: cs → c.rst = false → c.bus = some { we := true, addr := 2, data := w } → decode w = .ok i →
    Machine.step s = exec i (coreStep c { s with inputs := cs, cycle := s.cycle + 1 })

/-- 30_encoding.md R95, 40_command_dispatch.md R115 (in IDLE): an illegal word reports ILLEGAL_COMMAND after the clearing and
changes nothing else. STATUS then reads 0x604. -/
def Obligations.IllegalWordInIdleIsReported : Prop :=
  ∀ (s : State) (w : Word), s.Idle → 6 ≤ w.toNat →
    command w s = .next { s with status :=
        { s.status with
          done := false, error := true, dropped := false, errCode := .illegalCommand, errDetail := 0 } }
      ∧ (s.status.fatal = false → ∀ t, command w s = .next t → readReg .status t = 0x00000604)

/-- 40_command_dispatch.md R114: while BUSY every word but a legal NOP or ABORT, legal or not, sets DROPPED and changes nothing
else. -/
def Obligations.BusyDropsOtherWords : Prop :=
  ∀ (s : State) (w : Word), s.Busy → w.toNat ≠ 0 → w.toNat ≠ 2 →
    command w s = .next { s with status := { s.status with dropped := true } }

/-- 40_command_dispatch.md R116: while HALTED every command word is ignored, legal or illegal. -/
def Obligations.HaltedIgnoresEveryWord : Prop :=
  ∀ (s : State) (w : Word), s.status.phase = .halted → command w s = .next s

/-- 40_command_dispatch.md R112: NOP is word 0, and in every phase no state changes. -/
def Obligations.NopChangesNothing : Prop :=
  decode 0x00000000 = .ok .nop ∧ ∀ s : State, exec .nop s = .next s

/-- 40_command_dispatch.md R113: ABORT while BUSY ends the run with ABORTED and lets every register outside STATUS keep its
value, the stream stops; ABORT in IDLE only clears the report. -/
def Obligations.AbortEndsTheRunOrClearsStatus : Prop :=
  ∀ s : State,
    (s.Busy → exec .abort s = .next { s with status :=
        { s.status with
          phase := .idle, busy := false, done := false, dropped := false, error := true, errCode := .aborted, errDetail := 0 } }
        ∧ ∀ t, exec .abort s = .next t → sValid t = false ∧ sLast t = false)
      ∧ (s.Idle → exec .abort s = .next { s with status :=
        { s.status with done := false, error := false, dropped := false, errCode := .noError, errDetail := 0 } })

/-- 41_width_selector.md R132: the OUT_OF_RANGE checks, signed and in this order, of SELECT and of GENERATE; the derived
registers are empty and no run starts. -/
def Obligations.OutOfRangeParametersAreReported : Prop :=
  ∀ (s : State) (i : Instr), s.Idle → i = .select ∨ i = .generate →
    (sint32 s.host.tmax < 2 → exec i s = .next (s.fresh.reporting .outOfRange 1))
      ∧ (2 ≤ sint32 s.host.tmax → sint32 s.host.tmin < 1 → exec i s = .next (s.fresh.reporting .outOfRange 2))
      ∧ (2 ≤ sint32 s.host.tmax → 1 ≤ sint32 s.host.tmin → sint32 s.host.tmax ≤ sint32 s.host.tmin →
          exec i s = .next (s.fresh.reporting .outOfRange 3))

/-- 41_width_selector.md R134: a mode other than 0 and 1, the range checks passed, is UNSUPPORTED_OPTION; WIDTH_CALC stays 0. -/
def Obligations.UnsupportedModeIsReported : Prop :=
  ∀ (s : State) (i : Instr), s.Idle → i = .select ∨ i = .generate →
    2 ≤ sint32 s.host.tmax → 1 ≤ sint32 s.host.tmin → sint32 s.host.tmin < sint32 s.host.tmax →
    s.host.initMode ≠ 0 → s.host.initMode ≠ 1 →
    exec i s = .next (s.fresh.reporting .unsupportedOption 0)

/-- 41_width_selector.md R136 (and R135 for WIDTH_CALC): a width above 31 is CONFIGURATION_ERROR; WIDTH_CALC keeps the width,
`c` being the least integer with c * Tmin ≥ Tmax; WIDTH, TAPS, PERIOD and LEN stay 0. A width below 2 does not occur. -/
def Obligations.TooWideIsReported : Prop :=
  ∀ (s : State) (i : Instr) (a b c : Nat), s.Idle → i = .select ∨ i = .generate →
    sint32 s.host.tmax = a → sint32 s.host.tmin = b → 1 ≤ b → b < a → s.host.initMode = 0 ∨ s.host.initMode = 1 →
    a ≤ c * b → (c - 1) * b < a →
    2 ≤ c
      ∧ (31 < c → ∃ wc : Word, wc.toNat = c
          ∧ exec i s = .next ({ s.fresh with sel := { s.fresh.sel with widthCalc := wc } }.reporting .configurationError 0))

/-- 41_width_selector.md R137, R138, R141: SELECT with a good pair sets WIDTH_CALC = WIDTH = c, TAPS, PERIOD = 2^c - 1 and
LEN = (2^c - 1) * Tmin exactly, and stays in IDLE with no error. The report is cleared, the parameters are latched, and every
other per-call register is empty (R131), all in `State.fresh`; STATE stays 0. -/
def Obligations.SelectChoosesTheWidth : Prop :=
  ∀ (s : State) (a b c : Nat), s.Idle → Accepted s a b c →
    ∃ sel : Selection,
      sel.widthCalc.toNat = c ∧ sel.width.toNat = c ∧ sel.taps = tapRom c ∧ sel.period.toNat = 2 ^ c - 1
        ∧ sel.len.toNat = (2 ^ c - 1) * b
        ∧ exec .select s = .next { s.fresh with sel := sel }

/-- 43_prbs_generator.md R170: GENERATE with a good pair makes the same selection and starts a run: BUSY, PHASE = SEED, a new
and empty stream. -/
def Obligations.GenerateStartsARun : Prop :=
  ∀ (s : State) (a b c : Nat), s.Idle → Accepted s a b c →
    ∃ sel : Selection,
      sel.widthCalc.toNat = c ∧ sel.width.toNat = c ∧ sel.taps = tapRom c ∧ sel.period.toNat = 2 ^ c - 1
        ∧ sel.len.toNat = (2 ^ c - 1) * b
        ∧ exec .generate s = .next
            { s.fresh with sel := sel, status := { s.fresh.status with busy := true, phase := .seed }, out := [] }

/-- 42_lfsr_engine.md R158: LOAD_STATE loads STATE_WR[WIDTH-1:0], bits above ignored, and clears STEP_CNT; NOT_CONFIGURED
without a width, ZERO_STATE when the low WIDTH bits are zero, and then STATE does not change. -/
def Obligations.LoadStateLoadsTheLowBits : Prop :=
  ∀ s : State, s.Idle →
    let clean := { s with status :=
      { s.status with done := false, error := false, dropped := false, errCode := .noError, errDetail := 0 } }
    (s.sel.width = 0 → exec .loadState s = .next (clean.reporting .notConfigured 0))
      ∧ (s.sel.width ≠ 0 → s.host.stateWr.toNat % 2 ^ s.sel.width.toNat = 0 →
          exec .loadState s = .next (clean.reporting .zeroState 0))
      ∧ (s.sel.width ≠ 0 → s.host.stateWr.toNat % 2 ^ s.sel.width.toNat ≠ 0 →
          ∃ v : Bits31, v.toNat = s.host.stateWr.toNat % 2 ^ s.sel.width.toNat
            ∧ exec .loadState s = .next { clean with lfsr := { s.lfsr with state := v, stepCnt := 0 } })

/-- 42_lfsr_engine.md R159: STEP takes STATE and LAST_OUT through one lfsr_step and counts it modulo 2^32; NOT_CONFIGURED
without a width, then ZERO_STATE from state 0. -/
def Obligations.StepStepsTheRegisterOnce : Prop :=
  ∀ s : State, s.Idle →
    let clean := { s with status :=
      { s.status with done := false, error := false, dropped := false, errCode := .noError, errDetail := 0 } }
    (s.sel.width = 0 → exec .step s = .next (clean.reporting .notConfigured 0))
      ∧ (s.sel.width ≠ 0 → s.lfsr.state = 0 → exec .step s = .next (clean.reporting .zeroState 0))
      ∧ (s.sel.width ≠ 0 → s.lfsr.state ≠ 0 →
          ∃ k : Word, k.toNat = (s.lfsr.stepCnt.toNat + 1) % 2 ^ 32
            ∧ exec .step s = .next { clean with lfsr := { s.lfsr with
                state := (lfsrStep s.lfsr.state s.sel.width.toNat s.sel.taps).1
                lastOut := (lfsrStep s.lfsr.state s.sel.width.toNat s.sel.taps).2
                stepCnt := k } })

/-! ### The LFSR -/

/-- 42_lfsr_engine.md R151: `lfsr_step` with any mask: every bit moves one place toward the output end, the vacated input end
takes the parity of the masked bits, and the old bit at the output end comes out. With a table mask the parity is the XOR of the
bits at the tap positions. -/
def Obligations.LfsrStepShiftsAndFeedsBack : Prop :=
  ∀ (n : Nat) (s m : Bits31), 2 ≤ n → n ≤ 31 → s.toNat < 2 ^ n →
    (lfsrStep s n m).1.getLsbD 0 = parity (s &&& m)
      ∧ (∀ i, i + 1 < n → (lfsrStep s n m).1.getLsbD (i + 1) = s.getLsbD i)
      ∧ (lfsrStep s n m).1.toNat < 2 ^ n
      ∧ (lfsrStep s n m).2 = s.getLsbD (n - 1)
      ∧ parity (s &&& tapRom n) = (tapList n).foldl (fun x t => x != s.getLsbD (t - 1)) false

/-- 42_lfsr_engine.md R152: zero is a fixed point with output 0, all ones goes to 2^n - 2 with output 1, and the step is
invertible: on n-bit states it is one to one, so a nonzero state never steps to zero. Zero is the only fixed point: R156 has no
state come back before step 2^n - 1. -/
def Obligations.LfsrStepIsInvertible : Prop :=
  ∀ n : Nat, 2 ≤ n → n ≤ 31 →
    lfsrStep 0 n (tapRom n) = (0, false)
      ∧ lfsrStep (BitVec.ofNat 31 (2 ^ n - 1)) n (tapRom n) = (BitVec.ofNat 31 (2 ^ n - 2), true)
      ∧ (∀ s t : Bits31, s.toNat < 2 ^ n → t.toNat < 2 ^ n →
          (lfsrStep s n (tapRom n)).1 = (lfsrStep t n (tapRom n)).1 → s = t)
      ∧ ∀ s : Bits31, s.toNat < 2 ^ n → s ≠ 0 → (lfsrStep s n (tapRom n)).1 ≠ 0 ∧ (lfsrStep s n (tapRom n)).1 ≠ s

/-- 42_lfsr_engine.md R153: the first n raw outputs are the seed read from the output end, and every later one is the XOR of
the outputs n - (n - t) places back, over the taps t. -/
def Obligations.RawOutputsObeyTheRecurrence : Prop :=
  ∀ (n : Nat) (s : Bits31), 2 ≤ n → n ≤ 31 → s.toNat < 2 ^ n →
    (∀ k, k < n → rawBit n (tapRom n) s k = s.getLsbD (n - 1 - k))
      ∧ ∀ k, rawBit n (tapRom n) s (k + n) =
          (tapList n).foldl (fun x t => x != rawBit n (tapRom n) s (k + n - t)) false

/-- 42_lfsr_engine.md R156, 41_width_selector.md R140: from every nonzero state of every width the states before steps
1 .. 2^n - 1 are pairwise distinct, they are all the nonzero states, and the state after step 2^n - 1 is the first one again. -/
def Obligations.EveryTapMaskIsMaximalLength : Prop :=
  ∀ (n : Nat) (s : Bits31), 2 ≤ n → n ≤ 31 → s.toNat < 2 ^ n → s ≠ 0 →
    lfsrIter n (tapRom n) s (2 ^ n - 1) = s
      ∧ (∀ i j, i < j → j < 2 ^ n - 1 → lfsrIter n (tapRom n) s i ≠ lfsrIter n (tapRom n) s j)
      ∧ ∀ x : Bits31, x.toNat < 2 ^ n → x ≠ 0 → ∃ i, i < 2 ^ n - 1 ∧ lfsrIter n (tapRom n) s i = x

/-! ### The core steps and the ports -/

/-- 43_prbs_generator.md R172: the SEED step. Ones seeds with 2^WIDTH - 1 in any cycle; Random waits for an offer, discards an
offer whose low WIDTH bits are 0, and otherwise seeds with them; BUSY stays as it was. -/
def Obligations.SeedStepChoosesTheSeed : Prop :=
  ∀ (s : State) (c : CycleIn), s.status.phase = .seed →
    (s.latched.pMode = 1 → ∃ v : Bits31, v.toNat = 2 ^ s.sel.width.toNat - 1
        ∧ coreStep c s = { s with lfsr := { s.lfsr with state := v, seed := v }, status := { s.status with phase := .run } })
      ∧ (s.latched.pMode = 0 → c.rng = none → coreStep c s = s)
      ∧ (s.latched.pMode = 0 → ∀ d : Bits31, c.rng = some d → d.toNat % 2 ^ s.sel.width.toNat = 0 → coreStep c s = s)
      ∧ (s.latched.pMode = 0 → ∀ d : Bits31, c.rng = some d → d.toNat % 2 ^ s.sel.width.toNat ≠ 0 →
          ∃ v : Bits31, v.toNat = d.toNat % 2 ^ s.sel.width.toNat
            ∧ coreStep c s =
                { s with lfsr := { s.lfsr with state := v, seed := v }, status := { s.status with phase := .run } })

/-- 43_prbs_generator.md R174: the RUN step, when the consumer accepts: on the first copy of a raw bit the LFSR steps and its
output is the sample, else LAST_OUT is; the sample is emitted with `s_last` on the final one, given to the enforcer, counted,
and after the final one PHASE is CHECK. When the consumer waits, nothing changes. That SAMPLE_CNT < LEN in RUN is a part of the
invariant (`State.Inv.run_more`). -/
def Obligations.RunStepEmitsOneSample : Prop :=
  ∀ (s : State) (c : CycleIn), s.status.phase = .run →
    (c.sReady = false → coreStep c s = s)
      ∧ (c.sReady = true → 1 ≤ sint32 s.latched.pTmin → s.sampleCnt.toNat < s.sel.len.toNat →
          let j := s.sampleCnt.toNat
          let fin := decide (j + 1 = s.sel.len.toNat)
          let r : LfsrRegs := if j % (sint32 s.latched.pTmin).toNat = 0 then
              { s.lfsr with
                state := (lfsrStep s.lfsr.state s.sel.width.toNat s.sel.taps).1
                lastOut := (lfsrStep s.lfsr.state s.sel.width.toNat s.sel.taps).2
                stepCnt := s.lfsr.stepCnt + 1 }
            else s.lfsr
          ∃ k : Count, k.toNat = j + 1
            ∧ coreStep c s = { s with
                lfsr := r
                out := s.out ++ [{ val := r.lastOut, last := fin }]
                enf := s.enf.update r.lastOut
                sampleCnt := k
                status := { s.status with phase := if fin then .check else .run } })

/-- 44_run_length_enforcer.md R192 to R195: the CHECK step closes the last group, compares RL_MAX and RL_MIN with Tmax and Tmin
as integers, and ends the run in DONE and IDLE, or in FATAL and HALTED with one detail bit for each failed comparison. It
writes RL_MAX, RL_MIN and STATUS alone, and DROPPED keeps its value. -/
def Obligations.CheckStepPassesOrHalts : Prop :=
  ∀ (s : State) (c : CycleIn), s.status.phase = .check →
    ∃ mx mn : Count,
      (s.enf.hasRun = true → mx.toNat = max s.enf.rlMax.toNat s.enf.rlCurLen.toNat
          ∧ mn.toNat = min s.enf.rlMin.toNat s.enf.rlCurLen.toNat)
        ∧ (s.enf.hasRun = false → mx = s.enf.rlMax ∧ mn = s.enf.rlMin)
        ∧ ((mx.toNat : Int) = sint32 s.latched.pTmax → (mn.toNat : Int) = sint32 s.latched.pTmin →
            coreStep c s = { s with
              enf := { s.enf with rlMax := mx, rlMin := mn }
              status := { s.status with busy := false, done := true, phase := .idle } })
        ∧ (¬((mx.toNat : Int) = sint32 s.latched.pTmax ∧ (mn.toNat : Int) = sint32 s.latched.pTmin) →
            ∃ d : BitVec 2,
              (d.getLsbD 0 = true ↔ (mx.toNat : Int) ≠ sint32 s.latched.pTmax)
                ∧ (d.getLsbD 1 = true ↔ (mn.toNat : Int) ≠ sint32 s.latched.pTmin)
                ∧ coreStep c s = { s with
                    enf := { s.enf with rlMax := mx, rlMin := mn }
                    status := { s.status with
                      busy := false, fatal := true, phase := .halted, error := true
                      errCode := .internalInvariantViolation, errDetail := d } })

/-- 10_state.md R53: the sample `s_data` shows in RUN is the one the RUN step emits, with the `s_last` shown. -/
def Obligations.OfferedSampleIsTheEmittedOne : Prop :=
  ∀ (s : State) (c : CycleIn), s.status.phase = .run → c.sReady = true →
    (coreStep c s).out = s.out ++ [{ val := sData s, last := sLast s }] ∧ sValid s = true

/-- 60_exceptions.md R228, 10_state.md R53: an offered sample stays as it is until it is accepted, whatever the host does,
unless ABORT or reset ends the run. -/
def Obligations.OfferedSampleIsStable : Prop :=
  ∀ s t : State, Machine.step s = .next t → s.Busy → sValid s = true →
    (nextInput s).rst = false → (nextInput s).sReady = false →
    (∀ v, (nextInput s).bus ≠ some { we := true, addr := 2, data := v } ∨ v.toNat ≠ 2) →
    sValid t = true ∧ sData t = sData s ∧ sLast t = sLast s ∧ t.out = s.out

/-- 10_state.md R54, 43_prbs_generator.md R173: `rng_ready` is 1 exactly in SEED with Random, and from a run that waits for its
seed every nonzero value below 2^WIDTH is chosen by every entropy value whose low WIDTH bits equal it; no seed but these is
chosen. The Ones seed is 2^WIDTH - 1. -/
def Obligations.EveryNonzeroSeedCanBeDrawn : Prop :=
  ∀ s : State,
    (rngReady s = true ↔ s.status.phase = .seed ∧ s.latched.pMode = 0)
      ∧ (rngReady s = true → ∀ (c : CycleIn) (v d : Bits31), c.rng = some d → v ≠ 0 →
          d.toNat % 2 ^ s.sel.width.toNat = v.toNat →
          (coreStep c s).lfsr.seed = v ∧ (coreStep c s).status.phase = .run)
      ∧ (rngReady s = true → ∀ c : CycleIn, (coreStep c s).status.phase = .run →
          (coreStep c s).lfsr.seed ≠ 0 ∧ (coreStep c s).lfsr.seed.toNat < 2 ^ s.sel.width.toNat)
      ∧ (s.status.phase = .seed → s.latched.pMode = 1 → ∀ c : CycleIn,
          (coreStep c s).lfsr.seed.toNat = 2 ^ s.sel.width.toNat - 1)

/-! ### The run-length enforcer -/

/-- 44_run_length_enforcer.md R190: the three cases of `enforcer_update(b)`. RL_CUR_LEN would wrap at 2^64, where no reachable
state is (log 16). -/
def Obligations.EnforcerUpdateTracksRuns : Prop :=
  ∀ (e : Enforcer) (b : Bool),
    (e.hasRun = false → e.update b = { e with curVal := b, rlCurLen := 1, hasRun := true })
      ∧ (e.hasRun = true → b = e.curVal → e.update b = { e with rlCurLen := e.rlCurLen + 1 })
      ∧ (e.hasRun = true → b ≠ e.curVal →
          ∃ mx mn : Count, mx.toNat = max e.rlMax.toNat e.rlCurLen.toNat ∧ mn.toNat = min e.rlMin.toNat e.rlCurLen.toNat
            ∧ e.update b = { e with rlMax := mx, rlMin := mn, curVal := b, rlCurLen := 1 })

/-- 44_run_length_enforcer.md R191: after any samples, fewer than 2^64, the registers hold their linear grouping, and after the
close of CHECK they hold the longest and the shortest group of all; and in every reachable state of a run the registers are
those of the samples emitted so far, in every checked one those of the whole stream, closed. -/
def Obligations.EnforcerHoldsTheGrouping : Prop :=
  (∀ l : List Bool, l.length < 2 ^ 64 →
      (Enforcer.track l).Holds l ∧ (Enforcer.track l).close.rlMax.toNat = maxOf (runLengths l)
        ∧ (Enforcer.track l).close.rlMin.toNat = minOf (runLengths l))
    ∧ ∀ s : State, Reachable s →
        (s.status.phase = .run ∨ s.status.phase = .check → s.enf = .track s.outVals)
          ∧ (s.status.done = true ∨ s.status.phase = .halted → s.enf = (Enforcer.track s.outVals).close)

/-! ### Reset -/

/-- 10_state.md R57, R21: what every word reads right after reset: the constants, RL_MIN = 2^64 - 1, and 0 for the rest. -/
def Obligations.ResetValuesReadAsTabled : Prop :=
  ∀ a : Index, (readWord a State.reset).toNat =
    if a.toNat = 0 then 0x50524253 else if a.toNat = 1 then 0x00000001
    else if a.toNat = 26 ∨ a.toNat = 27 then 0xFFFFFFFF
    else if 32 ≤ a.toNat then (tapRom (a.toNat - 32)).toNat else 0

/-- 70_reset_and_hazards.md R240: in a cycle with `rst` = 1, from any state and whatever the other inputs, every register takes
its reset value, no host write has effect, and a host read returns the value before the cycle. That the consumer's and the
host's views (`out`, `reads`) stay is the model's own, log 4 and log 5. -/
def Obligations.ResetCycleRestoresEveryRegister : Prop :=
  ∀ (s : State) (c : CycleIn) (cs : List CycleIn), s.inputs = c :: cs → c.rst = true →
    let r := { State.reset with inputs := cs, cycle := s.cycle + 1, out := s.out, reads := s.reads }
    (∀ a v, c.bus = some { we := false, addr := a, data := v } →
        Machine.step s = .next { r with reads := s.reads ++ [{ addr := a, value := readWord a s }] })
      ∧ ((∀ a v, c.bus ≠ some { we := false, addr := a, data := v }) → Machine.step s = .next r)

/-! ### Whole-machine rules -/

/-- 60_exceptions.md R216, 40_command_dispatch.md R116: without reset the fatal state stays and its report is frozen, and FATAL
comes only from a failing CHECK step: one that, once it has closed the last group, does not find RL_MAX = Tmax and RL_MIN = Tmin
(44_run_length_enforcer.md R192). -/
def Obligations.FatalIsLeftOnlyByReset : Prop :=
  ∀ s t : State, StatusInv s.status → Machine.step s = .next t → (nextInput s).rst = false →
    (s.status.phase = .halted → t.status = s.status)
      ∧ (s.status.fatal = false → t.status.fatal = true →
          s.status.phase = .check
            ∧ ¬((s.enf.close.rlMax.toNat : Int) = sint32 s.latched.pTmax
              ∧ (s.enf.close.rlMin.toNat : Int) = sint32 s.latched.pTmin))

/-- 40_command_dispatch.md R117: the phase machine. Each core step and each CMD write moves PHASE along the table's arrows and
no other. -/
def Obligations.PhaseMovesAsTabled : Prop :=
  (∀ (s : State) (c : CycleIn),
      ((coreStep c s).status.phase = s.status.phase ∧ s.status.phase ≠ .check)
        ∨ (s.status.phase = .seed ∧ (coreStep c s).status.phase = .run)
        ∨ (s.status.phase = .run ∧ c.sReady = true ∧ s.sampleCnt.toNat + 1 = s.sel.len.toNat
            ∧ (coreStep c s).status.phase = .check)
        ∨ (s.status.phase = .check ∧ (coreStep c s).status.phase = .idle ∧ (coreStep c s).status.done = true)
        ∨ (s.status.phase = .check ∧ (coreStep c s).status.phase = .halted ∧ (coreStep c s).status.fatal = true))
    ∧ ∀ (s t : State) (w : Word), StatusInv s.status → command w s = .next t →
        t.status.phase = s.status.phase
          ∨ (s.status.phase = .idle ∧ w.toNat = 1 ∧ t.status.phase = .seed)
          ∨ (s.Busy ∧ w.toNat = 2 ∧ t.status.phase = .idle ∧ t.status.error = true)

/-- 10_state.md R36, 20_memory.md R62 (D37): while a run is in SEED or RUN no step without reset changes the latched
parameters or the selection, even one that rewrites TMAX, TMIN or INIT_MODE. -/
def Obligations.RunParametersAreImmutable : Prop :=
  ∀ s t : State, StatusInv s.status → Machine.step s = .next t → (nextInput s).rst = false →
    s.status.phase = .seed ∨ s.status.phase = .run →
    t.latched = s.latched ∧ t.sel = s.sel

/-- 10_state.md R22: only a register write to its own word, or reset, changes a host register; no command writes one. -/
def Obligations.OnlyRegisterWritesChangeHostRegisters : Prop :=
  ∀ s t : State, Machine.step s = .next t → (nextInput s).rst = false →
    t.host = s.host ∨ ∃ a v, (nextInput s).bus = some { we := true, addr := a, data := v } ∧ 4 ≤ a.toNat ∧ a.toNat ≤ 7

/-- 70_reset_and_hazards.md R246: an ABORT meets the state the core step of its cycle leaves. With the last RUN step it aborts
the run in CHECK, the full stream emitted; with a passing CHECK step it meets IDLE and clears DONE, with ERROR 0; with a failing
one it is ignored. -/
def Obligations.AbortMeetsWhatTheCoreStepLeaves : Prop :=
  ∀ (s : State) (c : CycleIn) (cs : List CycleIn), StatusInv s.status →
    s.inputs = c :: cs → c.rst = false → c.bus = some { we := true, addr := 2, data := 2 } →
    let u := coreStep c { s with inputs := cs, cycle := s.cycle + 1 }
    (s.status.phase = .run → c.sReady = true → s.sampleCnt.toNat + 1 = s.sel.len.toNat →
        ∃ t, Machine.step s = .next t ∧ readReg .status t = 0x00000904 ∧ t = { u with status := t.status }
          ∧ t.out.getLast? = some { val := sData s, last := true })
      ∧ (s.status.phase = .check → u.status.done = true →
          ∃ t, Machine.step s = .next t ∧ readReg .status t = 0 ∧ t = { u with status := t.status })
      ∧ (s.status.phase = .check → u.status.done = false → Machine.step s = .next u ∧ u.status.phase = .halted)

/-- 60_exceptions.md R214, R210: the machine never stops: every step of every state answers a next state, under every input. -/
def Obligations.EveryStepGoesOn : Prop :=
  ∀ s : State, ∃ t, Machine.step s = .next t ∧ t.inputs = s.inputs.tail ∧ t.cycle = s.cycle + 1

/-! ### Invariants -/

/-- 10_state.md R34, R56: the invariant holds right after reset, under every environment. -/
def Obligations.InvariantHoldsAtReset : Prop :=
  ∀ ins : List CycleIn, (State.start ins).Inv

/-- 10_state.md R34, R56; 43_prbs_generator.md R176; 44_run_length_enforcer.md R191: every step keeps the invariant. -/
def Obligations.StepKeepsTheInvariant : Prop :=
  ∀ s t : State, s.Inv → Machine.step s = .next t → t.Inv

/-- 10_state.md R34: the five STATUS invariants, in every reachable state. -/
def Obligations.ReachableStatusIsConsistent : Prop :=
  ∀ s : State, Reachable s →
    (s.status.busy = true ↔ s.status.phase = .seed ∨ s.status.phase = .run ∨ s.status.phase = .check)
      ∧ (s.status.fatal = true ↔ s.status.phase = .halted)
      ∧ (s.status.fatal = true → s.status.error = true ∧ s.status.errCode.code = 5)
      ∧ (s.status.done = true → s.status.error = false ∧ s.status.phase = .idle)
      ∧ (s.status.error = false → s.status.errCode.code = 0 ∧ s.status.errDetail = 0)

/-- 10_state.md R56: the five register invariants, in every reachable state. -/
def Obligations.ReachableRegistersAgree : Prop :=
  ∀ s : State, Reachable s →
    (s.lfsr.state.toNat < 2 ^ s.sel.width.toNat ∧ (s.sel.width = 0 → s.lfsr.state = 0))
      ∧ (s.sel.width ≠ 0 → s.sel.taps = tapRom s.sel.width.toNat ∧ s.sel.period.toNat = 2 ^ s.sel.width.toNat - 1
          ∧ (s.sel.len.toNat : Int) = s.sel.period.toNat * sint32 s.latched.pTmin)
      ∧ (s.sel.width = 0 → s.sel.taps = 0 ∧ s.sel.period = 0 ∧ s.sel.len = 0)
      ∧ (s.status.phase = .run ∨ s.status.phase = .check →
          s.lfsr.state ≠ 0 ∧ s.sampleCnt.toNat ≤ s.sel.len.toNat
            ∧ ∃ t : Nat, sint32 s.latched.pTmin = t ∧ s.sampleCnt.toNat ≤ s.lfsr.stepCnt.toNat * t
                ∧ s.lfsr.stepCnt.toNat * t < s.sampleCnt.toNat + t)
      ∧ (s.status.phase = .check → s.sampleCnt = s.sel.len ∧ s.lfsr.stepCnt.toNat = s.sel.period.toNat)

/-- 41_width_selector.md R142, 20_memory.md R67: in every reachable state LEN is at most (2^31 - 1)(2^31 - 2), below 2^62, and
SAMPLE_CNT, RL_CUR_LEN and RL_MAX are at most LEN; during a run STEP_CNT is at most PERIOD: none of them overflows. STEP_CNT alone
wraps, and only under debug STEP: a step without reset that makes it smaller is a GENERATE, SELECT or LOAD_STATE that clears it,
or a STEP from 2^32 - 1. -/
def Obligations.OnlyDebugStepWrapsACounter : Prop :=
  (∀ s : State, Reachable s →
      s.sel.len.toNat ≤ (2 ^ 31 - 1) * (2 ^ 31 - 2) ∧ s.sel.len.toNat < 2 ^ 62 ∧ s.sel.period.toNat ≤ 2 ^ 31 - 1
        ∧ (s.sel.width ≠ 0 → sint32 s.latched.pTmin ≤ 2 ^ 31 - 2)
        ∧ s.sampleCnt.toNat ≤ s.sel.len.toNat ∧ s.enf.rlCurLen.toNat ≤ s.sel.len.toNat
        ∧ s.enf.rlMax.toNat ≤ s.sel.len.toNat
        ∧ (s.status.busy = true → s.lfsr.stepCnt.toNat ≤ s.sel.period.toNat))
    ∧ ∀ s t : State, s.Inv → Machine.step s = .next t → (nextInput s).rst = false →
        t.lfsr.stepCnt.toNat < s.lfsr.stepCnt.toNat →
        t.lfsr.stepCnt = 0
          ∧ ∃ w : Word, (nextInput s).bus = some { we := true, addr := 2, data := w }
            ∧ (w.toNat = 1 ∨ w.toNat = 3 ∨ w.toNat = 4 ∨ (w.toNat = 5 ∧ s.lfsr.stepCnt.toNat = 2 ^ 32 - 1))

/-- 43_prbs_generator.md R175, R176: in RUN and CHECK sample k of the stream is the raw bit k div Tmin from SEED, and after k
samples STATE is SEED stepped ceil(k / Tmin) times. -/
def Obligations.StreamIsTheExpandedRawSequence : Prop :=
  ∀ s : State, Reachable s → s.status.phase = .run ∨ s.status.phase = .check →
    s.out.length = s.sampleCnt.toNat
      ∧ (∀ k, k < s.out.length →
          s.outVals[k]? = some (rawBit s.sel.width.toNat s.sel.taps s.lfsr.seed (k / (sint32 s.latched.pTmin).toNat)))
      ∧ s.lfsr.state = lfsrIter s.sel.width.toNat s.sel.taps s.lfsr.seed s.lfsr.stepCnt.toNat
      ∧ s.lfsr.seed ≠ 0

/-! ### What a run is worth -/

/-- 44_run_length_enforcer.md R198, 20_memory.md R73, 43_prbs_generator.md R179: a stream with DONE = 1 has exactly
(2^n - 1) * Tmin samples, its longest run is exactly Tmax, its shortest exactly Tmin, and `s_last` stands on its last sample
alone. -/
def Obligations.DoneStreamHasExactRuns : Prop :=
  ∀ s : State, Reachable s → s.status.done = true →
    s.result = some s.outVals
      ∧ (maxOf (runLengths s.outVals) : Int) = sint32 s.latched.pTmax
      ∧ (minOf (runLengths s.outVals) : Int) = sint32 s.latched.pTmin
      ∧ (s.out.length : Int) = (2 ^ s.sel.width.toNat - 1) * sint32 s.latched.pTmin
      ∧ ∀ k x, s.out[k]? = some x → (x.last = true ↔ k + 1 = s.out.length)

/-- 43_prbs_generator.md R180: two checked runs with the same parameters and the same seed, and so any two in Ones mode with the
same (Tmax, Tmin), emitted the same stream and end in the same registers and the same STATUS but for DROPPED, whatever the
consumer, the entropy source and the host did in between. -/
def Obligations.CheckedRunsAreDeterministic : Prop :=
  ∀ s t : State, Reachable s → Reachable t →
    s.status.done = true ∨ s.status.phase = .halted → t.status.done = true ∨ t.status.phase = .halted →
    s.latched = t.latched → s.latched.pMode = 1 ∨ s.lfsr.seed = t.lfsr.seed →
    s.out = t.out ∧ s.sel = t.sel ∧ s.lfsr = t.lfsr ∧ s.sampleCnt = t.sampleCnt ∧ s.enf = t.enf
      ∧ { s.status with dropped := t.status.dropped } = t.status

/-- 43_prbs_generator.md R178: in Ones mode, with a consumer that accepts every sample and a host that leaves the port alone, a
run in SEED ends after exactly 1 + LEN + 1 cycles, in DONE or in HALTED, and not before the last. -/
def Obligations.OnesRunEndsAfterItsSteps : Prop :=
  ∀ (s : State) (rest : List CycleIn), s.Inv → s.status.phase = .seed → s.latched.pMode = 1 →
    s.inputs = List.replicate (s.sel.len.toNat + 2) (quiet true none) ++ rest →
    (∃ t : State, Sys2Proof.core.run (s.sel.len.toNat + 2) s = .next t ∧ t.inputs = rest
        ∧ (t.status.done = true ∨ t.status.phase = .halted))
      ∧ ∀ k, k < s.sel.len.toNat + 2 → ∃ t : State, Sys2Proof.core.run k s = .next t ∧ t.status.busy = true

/-- 44_run_length_enforcer.md R197, 42_lfsr_engine.md R157: for every width, a checked run ended in DONE exactly when Tmin
divides Tmax and the seed is none of the n - 1 cut seeds lfsr_step^k(2^n - 1), 1 ≤ k ≤ n - 1. The spec enumerated R157 for
the widths 2 to 12 and rests it on general knowledge above; here it is claimed for every width. -/
def Obligations.CheckPassesExactlyOffTheCutSeeds : Prop :=
  ∀ s : State, Reachable s → s.status.done = true ∨ s.status.phase = .halted →
    (s.status.done = true ↔
      sint32 s.latched.pTmin ∣ sint32 s.latched.pTmax
        ∧ ∀ k, 1 ≤ k → k < s.sel.width.toNat →
            s.lfsr.seed ≠ lfsrIter s.sel.width.toNat (tapRom s.sel.width.toNat) (lowMask s.sel.width.toNat) k)

/-- 44_run_length_enforcer.md R198: the shortest run of a checked stream is always Tmin, so STATUS after a failed CHECK reads
0x154C, or 0x15CC when a word was dropped. -/
def Obligations.FailedCheckReportsTheLongestRunOnly : Prop :=
  ∀ s : State, Reachable s → s.status.done = true ∨ s.status.phase = .halted →
    (s.enf.rlMin.toNat : Int) = sint32 s.latched.pTmin
      ∧ (s.status.phase = .halted → readReg .status s = if s.status.dropped then 0x000015CC else 0x0000154C)

/-- 43_prbs_generator.md R177, 44_run_length_enforcer.md R196: in CHECK, and while the outcome of the check stands, the LFSR has
stepped exactly PERIOD times and stands at SEED again, with all LEN samples emitted. -/
def Obligations.RegisterIsBackAtItsSeed : Prop :=
  ∀ s : State, Reachable s → s.status.phase = .check ∨ s.status.done = true ∨ s.status.phase = .halted →
    s.lfsr.stepCnt.toNat = s.sel.period.toNat ∧ s.lfsr.state = s.lfsr.seed ∧ s.sampleCnt = s.sel.len
end

