-- ==== Sys2Proof/Laws/State.lean ====
section
/-! SUPPORT. One lemma per field per update of State and of STATUS, each true by rfl, so that no proof unfolds an update. -/

namespace Sys2Proof.Machine

section StatusUpdates
@[simp] theorem Status.raise_busy (c : ErrCode) (d : BitVec 2) (f : Status) : (f.raise c d).busy = f.busy := rfl
@[simp] theorem Status.raise_done (c : ErrCode) (d : BitVec 2) (f : Status) : (f.raise c d).done = f.done := rfl
@[simp] theorem Status.raise_error (c : ErrCode) (d : BitVec 2) (f : Status) : (f.raise c d).error = true := rfl
@[simp] theorem Status.raise_fatal (c : ErrCode) (d : BitVec 2) (f : Status) : (f.raise c d).fatal = f.fatal := rfl
@[simp] theorem Status.raise_phase (c : ErrCode) (d : BitVec 2) (f : Status) : (f.raise c d).phase = f.phase := rfl
@[simp] theorem Status.raise_dropped (c : ErrCode) (d : BitVec 2) (f : Status) : (f.raise c d).dropped = f.dropped := rfl
@[simp] theorem Status.raise_errCode (c : ErrCode) (d : BitVec 2) (f : Status) : (f.raise c d).errCode = c := rfl
@[simp] theorem Status.raise_errDetail (c : ErrCode) (d : BitVec 2) (f : Status) : (f.raise c d).errDetail = d := rfl

@[simp] theorem Status.clearReport_busy (f : Status) : (f.clearReport).busy = f.busy := rfl
@[simp] theorem Status.clearReport_done (f : Status) : (f.clearReport).done = false := rfl
@[simp] theorem Status.clearReport_error (f : Status) : (f.clearReport).error = false := rfl
@[simp] theorem Status.clearReport_fatal (f : Status) : (f.clearReport).fatal = f.fatal := rfl
@[simp] theorem Status.clearReport_phase (f : Status) : (f.clearReport).phase = f.phase := rfl
@[simp] theorem Status.clearReport_dropped (f : Status) : (f.clearReport).dropped = false := rfl
@[simp] theorem Status.clearReport_errCode (f : Status) : (f.clearReport).errCode = .noError := rfl
@[simp] theorem Status.clearReport_errDetail (f : Status) : (f.clearReport).errDetail = 0 := rfl

@[simp] theorem Status.drop_busy (f : Status) : (f.drop).busy = f.busy := rfl
@[simp] theorem Status.drop_done (f : Status) : (f.drop).done = f.done := rfl
@[simp] theorem Status.drop_error (f : Status) : (f.drop).error = f.error := rfl
@[simp] theorem Status.drop_fatal (f : Status) : (f.drop).fatal = f.fatal := rfl
@[simp] theorem Status.drop_phase (f : Status) : (f.drop).phase = f.phase := rfl
@[simp] theorem Status.drop_dropped (f : Status) : (f.drop).dropped = true := rfl
@[simp] theorem Status.drop_errCode (f : Status) : (f.drop).errCode = f.errCode := rfl
@[simp] theorem Status.drop_errDetail (f : Status) : (f.drop).errDetail = f.errDetail := rfl

@[simp] theorem Status.startRun_busy (f : Status) : (f.startRun).busy = true := rfl
@[simp] theorem Status.startRun_done (f : Status) : (f.startRun).done = f.done := rfl
@[simp] theorem Status.startRun_error (f : Status) : (f.startRun).error = f.error := rfl
@[simp] theorem Status.startRun_fatal (f : Status) : (f.startRun).fatal = f.fatal := rfl
@[simp] theorem Status.startRun_phase (f : Status) : (f.startRun).phase = .seed := rfl
@[simp] theorem Status.startRun_dropped (f : Status) : (f.startRun).dropped = f.dropped := rfl
@[simp] theorem Status.startRun_errCode (f : Status) : (f.startRun).errCode = f.errCode := rfl
@[simp] theorem Status.startRun_errDetail (f : Status) : (f.startRun).errDetail = f.errDetail := rfl

@[simp] theorem Status.abortRun_busy (f : Status) : (f.abortRun).busy = false := rfl
@[simp] theorem Status.abortRun_done (f : Status) : (f.abortRun).done = false := rfl
@[simp] theorem Status.abortRun_error (f : Status) : (f.abortRun).error = true := rfl
@[simp] theorem Status.abortRun_fatal (f : Status) : (f.abortRun).fatal = f.fatal := rfl
@[simp] theorem Status.abortRun_phase (f : Status) : (f.abortRun).phase = .idle := rfl
@[simp] theorem Status.abortRun_dropped (f : Status) : (f.abortRun).dropped = false := rfl
@[simp] theorem Status.abortRun_errCode (f : Status) : (f.abortRun).errCode = .aborted := rfl
@[simp] theorem Status.abortRun_errDetail (f : Status) : (f.abortRun).errDetail = 0 := rfl

@[simp] theorem Status.pass_busy (f : Status) : (f.pass).busy = false := rfl
@[simp] theorem Status.pass_done (f : Status) : (f.pass).done = true := rfl
@[simp] theorem Status.pass_error (f : Status) : (f.pass).error = f.error := rfl
@[simp] theorem Status.pass_fatal (f : Status) : (f.pass).fatal = f.fatal := rfl
@[simp] theorem Status.pass_phase (f : Status) : (f.pass).phase = .idle := rfl
@[simp] theorem Status.pass_dropped (f : Status) : (f.pass).dropped = f.dropped := rfl
@[simp] theorem Status.pass_errCode (f : Status) : (f.pass).errCode = f.errCode := rfl
@[simp] theorem Status.pass_errDetail (f : Status) : (f.pass).errDetail = f.errDetail := rfl

@[simp] theorem Status.violate_busy (x y : Bool) (f : Status) : (f.violate x y).busy = false := rfl
@[simp] theorem Status.violate_done (x y : Bool) (f : Status) : (f.violate x y).done = f.done := rfl
@[simp] theorem Status.violate_error (x y : Bool) (f : Status) : (f.violate x y).error = true := rfl
@[simp] theorem Status.violate_fatal (x y : Bool) (f : Status) : (f.violate x y).fatal = true := rfl
@[simp] theorem Status.violate_phase (x y : Bool) (f : Status) : (f.violate x y).phase = .halted := rfl
@[simp] theorem Status.violate_dropped (x y : Bool) (f : Status) : (f.violate x y).dropped = f.dropped := rfl
@[simp] theorem Status.violate_errCode (x y : Bool) (f : Status) : (f.violate x y).errCode = .internalInvariantViolation := rfl
@[simp] theorem Status.violate_errDetail (x y : Bool) (f : Status) : (f.violate x y).errDetail = violationDetail x y := rfl

end StatusUpdates

section StateUpdates

@[simp] theorem raiseError_host (c : ErrCode) (d : BitVec 2) (s : State) : (raiseError c d s).host = s.host := rfl
@[simp] theorem raiseError_status (c : ErrCode) (d : BitVec 2) (s : State) : (raiseError c d s).status = s.status.raise c d := rfl
@[simp] theorem raiseError_latched (c : ErrCode) (d : BitVec 2) (s : State) : (raiseError c d s).latched = s.latched := rfl
@[simp] theorem raiseError_sel (c : ErrCode) (d : BitVec 2) (s : State) : (raiseError c d s).sel = s.sel := rfl
@[simp] theorem raiseError_lfsr (c : ErrCode) (d : BitVec 2) (s : State) : (raiseError c d s).lfsr = s.lfsr := rfl
@[simp] theorem raiseError_sampleCnt (c : ErrCode) (d : BitVec 2) (s : State) : (raiseError c d s).sampleCnt = s.sampleCnt := rfl
@[simp] theorem raiseError_enf (c : ErrCode) (d : BitVec 2) (s : State) : (raiseError c d s).enf = s.enf := rfl
@[simp] theorem raiseError_out (c : ErrCode) (d : BitVec 2) (s : State) : (raiseError c d s).out = s.out := rfl
@[simp] theorem raiseError_reads (c : ErrCode) (d : BitVec 2) (s : State) : (raiseError c d s).reads = s.reads := rfl
@[simp] theorem raiseError_inputs (c : ErrCode) (d : BitVec 2) (s : State) : (raiseError c d s).inputs = s.inputs := rfl
@[simp] theorem raiseError_cycle (c : ErrCode) (d : BitVec 2) (s : State) : (raiseError c d s).cycle = s.cycle := rfl

@[simp] theorem clearReport_host (s : State) : (clearReport s).host = s.host := rfl
@[simp] theorem clearReport_status (s : State) : (clearReport s).status = s.status.clearReport := rfl
@[simp] theorem clearReport_latched (s : State) : (clearReport s).latched = s.latched := rfl
@[simp] theorem clearReport_sel (s : State) : (clearReport s).sel = s.sel := rfl
@[simp] theorem clearReport_lfsr (s : State) : (clearReport s).lfsr = s.lfsr := rfl
@[simp] theorem clearReport_sampleCnt (s : State) : (clearReport s).sampleCnt = s.sampleCnt := rfl
@[simp] theorem clearReport_enf (s : State) : (clearReport s).enf = s.enf := rfl
@[simp] theorem clearReport_out (s : State) : (clearReport s).out = s.out := rfl
@[simp] theorem clearReport_reads (s : State) : (clearReport s).reads = s.reads := rfl
@[simp] theorem clearReport_inputs (s : State) : (clearReport s).inputs = s.inputs := rfl
@[simp] theorem clearReport_cycle (s : State) : (clearReport s).cycle = s.cycle := rfl

@[simp] theorem dropWord_host (s : State) : (dropWord s).host = s.host := rfl
@[simp] theorem dropWord_status (s : State) : (dropWord s).status = s.status.drop := rfl
@[simp] theorem dropWord_latched (s : State) : (dropWord s).latched = s.latched := rfl
@[simp] theorem dropWord_sel (s : State) : (dropWord s).sel = s.sel := rfl
@[simp] theorem dropWord_lfsr (s : State) : (dropWord s).lfsr = s.lfsr := rfl
@[simp] theorem dropWord_sampleCnt (s : State) : (dropWord s).sampleCnt = s.sampleCnt := rfl
@[simp] theorem dropWord_enf (s : State) : (dropWord s).enf = s.enf := rfl
@[simp] theorem dropWord_out (s : State) : (dropWord s).out = s.out := rfl
@[simp] theorem dropWord_reads (s : State) : (dropWord s).reads = s.reads := rfl
@[simp] theorem dropWord_inputs (s : State) : (dropWord s).inputs = s.inputs := rfl
@[simp] theorem dropWord_cycle (s : State) : (dropWord s).cycle = s.cycle := rfl

@[simp] theorem abortRun_host (s : State) : (abortRun s).host = s.host := rfl
@[simp] theorem abortRun_status (s : State) : (abortRun s).status = s.status.abortRun := rfl
@[simp] theorem abortRun_latched (s : State) : (abortRun s).latched = s.latched := rfl
@[simp] theorem abortRun_sel (s : State) : (abortRun s).sel = s.sel := rfl
@[simp] theorem abortRun_lfsr (s : State) : (abortRun s).lfsr = s.lfsr := rfl
@[simp] theorem abortRun_sampleCnt (s : State) : (abortRun s).sampleCnt = s.sampleCnt := rfl
@[simp] theorem abortRun_enf (s : State) : (abortRun s).enf = s.enf := rfl
@[simp] theorem abortRun_out (s : State) : (abortRun s).out = s.out := rfl
@[simp] theorem abortRun_reads (s : State) : (abortRun s).reads = s.reads := rfl
@[simp] theorem abortRun_inputs (s : State) : (abortRun s).inputs = s.inputs := rfl
@[simp] theorem abortRun_cycle (s : State) : (abortRun s).cycle = s.cycle := rfl

@[simp] theorem startRun_host (s : State) : (startRun s).host = s.host := rfl
@[simp] theorem startRun_status (s : State) : (startRun s).status = s.status.startRun := rfl
@[simp] theorem startRun_latched (s : State) : (startRun s).latched = s.latched := rfl
@[simp] theorem startRun_sel (s : State) : (startRun s).sel = s.sel := rfl
@[simp] theorem startRun_lfsr (s : State) : (startRun s).lfsr = s.lfsr := rfl
@[simp] theorem startRun_sampleCnt (s : State) : (startRun s).sampleCnt = s.sampleCnt := rfl
@[simp] theorem startRun_enf (s : State) : (startRun s).enf = s.enf := rfl
@[simp] theorem startRun_out (s : State) : (startRun s).out = [] := rfl
@[simp] theorem startRun_reads (s : State) : (startRun s).reads = s.reads := rfl
@[simp] theorem startRun_inputs (s : State) : (startRun s).inputs = s.inputs := rfl
@[simp] theorem startRun_cycle (s : State) : (startRun s).cycle = s.cycle := rfl

@[simp] theorem latchParams_host (s : State) : (latchParams s).host = s.host := rfl
@[simp] theorem latchParams_status (s : State) : (latchParams s).status = s.status := rfl
@[simp] theorem latchParams_latched (s : State) : (latchParams s).latched = ⟨s.host.tmax, s.host.tmin, s.host.initMode⟩ := rfl
@[simp] theorem latchParams_sel (s : State) : (latchParams s).sel = s.sel := rfl
@[simp] theorem latchParams_lfsr (s : State) : (latchParams s).lfsr = s.lfsr := rfl
@[simp] theorem latchParams_sampleCnt (s : State) : (latchParams s).sampleCnt = s.sampleCnt := rfl
@[simp] theorem latchParams_enf (s : State) : (latchParams s).enf = s.enf := rfl
@[simp] theorem latchParams_out (s : State) : (latchParams s).out = s.out := rfl
@[simp] theorem latchParams_reads (s : State) : (latchParams s).reads = s.reads := rfl
@[simp] theorem latchParams_inputs (s : State) : (latchParams s).inputs = s.inputs := rfl
@[simp] theorem latchParams_cycle (s : State) : (latchParams s).cycle = s.cycle := rfl

@[simp] theorem clearDerived_host (s : State) : (clearDerived s).host = s.host := rfl
@[simp] theorem clearDerived_status (s : State) : (clearDerived s).status = s.status := rfl
@[simp] theorem clearDerived_latched (s : State) : (clearDerived s).latched = s.latched := rfl
@[simp] theorem clearDerived_sel (s : State) : (clearDerived s).sel = .reset := rfl
@[simp] theorem clearDerived_lfsr (s : State) : (clearDerived s).lfsr = .reset := rfl
@[simp] theorem clearDerived_sampleCnt (s : State) : (clearDerived s).sampleCnt = 0 := rfl
@[simp] theorem clearDerived_enf (s : State) : (clearDerived s).enf = .reset := rfl
@[simp] theorem clearDerived_out (s : State) : (clearDerived s).out = s.out := rfl
@[simp] theorem clearDerived_reads (s : State) : (clearDerived s).reads = s.reads := rfl
@[simp] theorem clearDerived_inputs (s : State) : (clearDerived s).inputs = s.inputs := rfl
@[simp] theorem clearDerived_cycle (s : State) : (clearDerived s).cycle = s.cycle := rfl

@[simp] theorem setWidthCalc_host (c : Nat) (s : State) : (setWidthCalc c s).host = s.host := rfl
@[simp] theorem setWidthCalc_status (c : Nat) (s : State) : (setWidthCalc c s).status = s.status := rfl
@[simp] theorem setWidthCalc_latched (c : Nat) (s : State) : (setWidthCalc c s).latched = s.latched := rfl
@[simp] theorem setWidthCalc_sel (c : Nat) (s : State) : (setWidthCalc c s).sel = { s.sel with widthCalc := BitVec.ofNat 32 c } := rfl
@[simp] theorem setWidthCalc_lfsr (c : Nat) (s : State) : (setWidthCalc c s).lfsr = s.lfsr := rfl
@[simp] theorem setWidthCalc_sampleCnt (c : Nat) (s : State) : (setWidthCalc c s).sampleCnt = s.sampleCnt := rfl
@[simp] theorem setWidthCalc_enf (c : Nat) (s : State) : (setWidthCalc c s).enf = s.enf := rfl
@[simp] theorem setWidthCalc_out (c : Nat) (s : State) : (setWidthCalc c s).out = s.out := rfl
@[simp] theorem setWidthCalc_reads (c : Nat) (s : State) : (setWidthCalc c s).reads = s.reads := rfl
@[simp] theorem setWidthCalc_inputs (c : Nat) (s : State) : (setWidthCalc c s).inputs = s.inputs := rfl
@[simp] theorem setWidthCalc_cycle (c : Nat) (s : State) : (setWidthCalc c s).cycle = s.cycle := rfl

@[simp] theorem setSelection_host (c b : Nat) (s : State) : (setSelection c b s).host = s.host := rfl
@[simp] theorem setSelection_status (c b : Nat) (s : State) : (setSelection c b s).status = s.status := rfl
@[simp] theorem setSelection_latched (c b : Nat) (s : State) : (setSelection c b s).latched = s.latched := rfl
@[simp] theorem setSelection_sel (c b : Nat) (s : State) : (setSelection c b s).sel = { s.sel with
      width := BitVec.ofNat 5 c
      taps := tapRom c
      period := BitVec.ofNat 31 (2 ^ c - 1)
      len := BitVec.ofNat 64 ((2 ^ c - 1) * b) } := rfl
@[simp] theorem setSelection_lfsr (c b : Nat) (s : State) : (setSelection c b s).lfsr = s.lfsr := rfl
@[simp] theorem setSelection_sampleCnt (c b : Nat) (s : State) : (setSelection c b s).sampleCnt = s.sampleCnt := rfl
@[simp] theorem setSelection_enf (c b : Nat) (s : State) : (setSelection c b s).enf = s.enf := rfl
@[simp] theorem setSelection_out (c b : Nat) (s : State) : (setSelection c b s).out = s.out := rfl
@[simp] theorem setSelection_reads (c b : Nat) (s : State) : (setSelection c b s).reads = s.reads := rfl
@[simp] theorem setSelection_inputs (c b : Nat) (s : State) : (setSelection c b s).inputs = s.inputs := rfl
@[simp] theorem setSelection_cycle (c b : Nat) (s : State) : (setSelection c b s).cycle = s.cycle := rfl

@[simp] theorem setSeed_host (v : Bits31) (s : State) : (setSeed v s).host = s.host := rfl
@[simp] theorem setSeed_status (v : Bits31) (s : State) : (setSeed v s).status = { s.status with phase := .run } := rfl
@[simp] theorem setSeed_latched (v : Bits31) (s : State) : (setSeed v s).latched = s.latched := rfl
@[simp] theorem setSeed_sel (v : Bits31) (s : State) : (setSeed v s).sel = s.sel := rfl
@[simp] theorem setSeed_lfsr (v : Bits31) (s : State) : (setSeed v s).lfsr = { s.lfsr with state := v, seed := v } := rfl
@[simp] theorem setSeed_sampleCnt (v : Bits31) (s : State) : (setSeed v s).sampleCnt = s.sampleCnt := rfl
@[simp] theorem setSeed_enf (v : Bits31) (s : State) : (setSeed v s).enf = s.enf := rfl
@[simp] theorem setSeed_out (v : Bits31) (s : State) : (setSeed v s).out = s.out := rfl
@[simp] theorem setSeed_reads (v : Bits31) (s : State) : (setSeed v s).reads = s.reads := rfl
@[simp] theorem setSeed_inputs (v : Bits31) (s : State) : (setSeed v s).inputs = s.inputs := rfl
@[simp] theorem setSeed_cycle (v : Bits31) (s : State) : (setSeed v s).cycle = s.cycle := rfl

@[simp] theorem recordRead_host (a : Index) (v : Word) (s : State) : (recordRead a v s).host = s.host := rfl
@[simp] theorem recordRead_status (a : Index) (v : Word) (s : State) : (recordRead a v s).status = s.status := rfl
@[simp] theorem recordRead_latched (a : Index) (v : Word) (s : State) : (recordRead a v s).latched = s.latched := rfl
@[simp] theorem recordRead_sel (a : Index) (v : Word) (s : State) : (recordRead a v s).sel = s.sel := rfl
@[simp] theorem recordRead_lfsr (a : Index) (v : Word) (s : State) : (recordRead a v s).lfsr = s.lfsr := rfl
@[simp] theorem recordRead_sampleCnt (a : Index) (v : Word) (s : State) : (recordRead a v s).sampleCnt = s.sampleCnt := rfl
@[simp] theorem recordRead_enf (a : Index) (v : Word) (s : State) : (recordRead a v s).enf = s.enf := rfl
@[simp] theorem recordRead_out (a : Index) (v : Word) (s : State) : (recordRead a v s).out = s.out := rfl
@[simp] theorem recordRead_reads (a : Index) (v : Word) (s : State) : (recordRead a v s).reads = s.reads ++ [⟨a, v⟩] := rfl
@[simp] theorem recordRead_inputs (a : Index) (v : Word) (s : State) : (recordRead a v s).inputs = s.inputs := rfl
@[simp] theorem recordRead_cycle (a : Index) (v : Word) (s : State) : (recordRead a v s).cycle = s.cycle := rfl

@[simp] theorem resetBlock_host (s : State) : (resetBlock s).host = .reset := rfl
@[simp] theorem resetBlock_status (s : State) : (resetBlock s).status = .reset := rfl
@[simp] theorem resetBlock_latched (s : State) : (resetBlock s).latched = .reset := rfl
@[simp] theorem resetBlock_sel (s : State) : (resetBlock s).sel = .reset := rfl
@[simp] theorem resetBlock_lfsr (s : State) : (resetBlock s).lfsr = .reset := rfl
@[simp] theorem resetBlock_sampleCnt (s : State) : (resetBlock s).sampleCnt = 0 := rfl
@[simp] theorem resetBlock_enf (s : State) : (resetBlock s).enf = .reset := rfl
@[simp] theorem resetBlock_out (s : State) : (resetBlock s).out = s.out := rfl
@[simp] theorem resetBlock_reads (s : State) : (resetBlock s).reads = s.reads := rfl
@[simp] theorem resetBlock_inputs (s : State) : (resetBlock s).inputs = s.inputs := rfl
@[simp] theorem resetBlock_cycle (s : State) : (resetBlock s).cycle = s.cycle := rfl

@[simp] theorem runStep_host (s : State) : (runStep s).host = s.host := rfl
theorem runStep_status (s : State) : (runStep s).status = if finalSample s then { s.status with phase := .check } else s.status := rfl
@[simp] theorem runStep_latched (s : State) : (runStep s).latched = s.latched := rfl
@[simp] theorem runStep_sel (s : State) : (runStep s).sel = s.sel := rfl
@[simp] theorem runStep_lfsr (s : State) : (runStep s).lfsr = advanceLfsr s := rfl
@[simp] theorem runStep_sampleCnt (s : State) : (runStep s).sampleCnt = s.sampleCnt + 1 := rfl
@[simp] theorem runStep_enf (s : State) : (runStep s).enf = s.enf.update (advanceLfsr s).lastOut := rfl
@[simp] theorem runStep_out (s : State) : (runStep s).out = s.out ++ [⟨(advanceLfsr s).lastOut, finalSample s⟩] := rfl
@[simp] theorem runStep_reads (s : State) : (runStep s).reads = s.reads := rfl
@[simp] theorem runStep_inputs (s : State) : (runStep s).inputs = s.inputs := rfl
@[simp] theorem runStep_cycle (s : State) : (runStep s).cycle = s.cycle := rfl

@[simp] theorem checkStep_host (s : State) : (checkStep s).host = s.host := rfl
theorem checkStep_status (s : State) : (checkStep s).status = if okMax s && okMin s then s.status.pass else s.status.violate (okMax s) (okMin s) := rfl
@[simp] theorem checkStep_latched (s : State) : (checkStep s).latched = s.latched := rfl
@[simp] theorem checkStep_sel (s : State) : (checkStep s).sel = s.sel := rfl
@[simp] theorem checkStep_lfsr (s : State) : (checkStep s).lfsr = s.lfsr := rfl
@[simp] theorem checkStep_sampleCnt (s : State) : (checkStep s).sampleCnt = s.sampleCnt := rfl
@[simp] theorem checkStep_enf (s : State) : (checkStep s).enf = s.enf.close := rfl
@[simp] theorem checkStep_out (s : State) : (checkStep s).out = s.out := rfl
@[simp] theorem checkStep_reads (s : State) : (checkStep s).reads = s.reads := rfl
@[simp] theorem checkStep_inputs (s : State) : (checkStep s).inputs = s.inputs := rfl
@[simp] theorem checkStep_cycle (s : State) : (checkStep s).cycle = s.cycle := rfl

@[simp] theorem takeInput_host (s : State) : (takeInput s).host = s.host := rfl
@[simp] theorem takeInput_status (s : State) : (takeInput s).status = s.status := rfl
@[simp] theorem takeInput_latched (s : State) : (takeInput s).latched = s.latched := rfl
@[simp] theorem takeInput_sel (s : State) : (takeInput s).sel = s.sel := rfl
@[simp] theorem takeInput_lfsr (s : State) : (takeInput s).lfsr = s.lfsr := rfl
@[simp] theorem takeInput_sampleCnt (s : State) : (takeInput s).sampleCnt = s.sampleCnt := rfl
@[simp] theorem takeInput_enf (s : State) : (takeInput s).enf = s.enf := rfl
@[simp] theorem takeInput_out (s : State) : (takeInput s).out = s.out := rfl
@[simp] theorem takeInput_reads (s : State) : (takeInput s).reads = s.reads := rfl
@[simp] theorem takeInput_inputs (s : State) : (takeInput s).inputs = s.inputs.tail := rfl
@[simp] theorem takeInput_cycle (s : State) : (takeInput s).cycle = s.cycle + 1 := rfl

end StateUpdates

end Sys2Proof.Machine
end

