-- ==== Sys2Proof/Laws/Ops.lean ====
section
/-! SUPPORT. What the gate of `dispatch`, the register window and the cycle can do, said once (40_command_dispatch.md R110;
20_memory.md R61, R62, R71). -/

namespace Sys2Proof.Machine

theorem gate_halted {busy idle : State → State} {s : State} (h : s.status.phase = .halted) : gate busy idle s = s := by
  simp [gate, h]

theorem gate_busy {busy idle : State → State} {s : State} (h : s.status.phase ≠ .halted) (hb : s.status.busy = true) :
    gate busy idle s = busy s := by
  simp [gate, h, hb]

theorem gate_idle {busy idle : State → State} {s : State} (h : s.status.phase ≠ .halted) (hb : s.status.busy = false) :
    gate busy idle s = idle s := by
  simp [gate, h, hb]

/-- The three cases of the gate. -/
theorem gate_cases (busy idle : State → State) (s : State) :
    (s.status.phase = .halted ∧ gate busy idle s = s)
      ∨ (s.status.phase ≠ .halted ∧ s.status.busy = true ∧ gate busy idle s = busy s)
      ∨ (s.status.phase ≠ .halted ∧ s.status.busy = false ∧ gate busy idle s = idle s) := by
  by_cases h : s.status.phase = .halted
  · exact .inl ⟨h, gate_halted h⟩
  · cases hb : s.status.busy
    · exact .inr (.inr ⟨h, rfl, gate_idle h hb⟩)
    · exact .inr (.inl ⟨h, rfl, gate_busy h hb⟩)

/-- A command's next state, by the three cases of `dispatch`. -/
theorem acceptIdle_cases (effect : State → State) (s : State) :
    (s.status.phase = .halted ∧ acceptIdle effect s = s)
      ∨ (s.status.phase ≠ .halted ∧ s.status.busy = true ∧ acceptIdle effect s = dropWord s)
      ∨ (s.status.phase ≠ .halted ∧ s.status.busy = false ∧ acceptIdle effect s = effect (clearReport s)) :=
  gate_cases _ _ _

/-- A write to the register window leaves everything but the four host registers as it was. -/
theorem writeWord_frame (a : Index) (v : Word) (s : State) : writeWord a v s = { s with host := (writeWord a v s).host } := by
  unfold writeWord
  split <;> rfl

/-- Every command's meaning answers a next state, and so does every word written to CMD: the six meanings, or an illegal
word's effect. -/
theorem command_next (w : Word) (s : State) : ∃ t, command w s = .next t := by
  unfold command
  split
  · rename_i i _
    cases i <;> exact ⟨_, rfl⟩
  · exact ⟨_, rfl⟩

/-- What a host access in a cycle can be, with what it leaves. -/
theorem hostAccess_cases (bus : Option BusTxn) (before s : State) :
    (bus = none ∧ hostAccess bus before s = .next s)
      ∨ (∃ a v, bus = some ⟨false, a, v⟩ ∧ hostAccess bus before s = .next (recordRead a (readWord a before) s))
      ∨ (∃ a v, bus = some ⟨true, a, v⟩ ∧ regAt a = some .cmd ∧ hostAccess bus before s = command v s)
      ∨ (∃ a v, bus = some ⟨true, a, v⟩ ∧ regAt a ≠ some .cmd ∧ hostAccess bus before s = .next (writeWord a v s)) := by
  cases bus with
  | none => exact .inl ⟨rfl, rfl⟩
  | some t =>
    obtain ⟨we, a, v⟩ := t
    cases we
    · exact .inr (.inl ⟨a, v, rfl, rfl⟩)
    · by_cases h : regAt a = some .cmd
      · exact .inr (.inr (.inl ⟨a, v, rfl, h, by simp [hostAccess, busWrite, h]⟩))
      · exact .inr (.inr (.inr ⟨a, v, rfl, h, by simp [hostAccess, busWrite, h]⟩))

/-- What one step can do: a reset cycle, or the core step and then the host access. -/
theorem step_cases (s : State) :
    ((nextInput s).rst = true ∧ step s = .next (resetCycle (nextInput s).bus (takeInput s)))
      ∨ ((nextInput s).rst = false
          ∧ step s = hostAccess (nextInput s).bus (takeInput s) (coreStep (nextInput s) (takeInput s))) := by
  cases h : (nextInput s).rst
  · exact .inr ⟨rfl, by simp [step, runCycle, h]⟩
  · exact .inl ⟨rfl, by simp [step, runCycle, h]⟩

end Sys2Proof.Machine
end

