-- ==== Sys2Proof/Laws/Commands.lean ====
section
/-! SUPPORT. What a word written to CMD can do, said once, by the three cases of `dispatch` (40_command_dispatch.md R110 to R116):
proofs cite `command_cases` and never unfold a meaning's gate. -/

namespace Sys2Proof.Machine

/-- What a command word does in IDLE (40_command_dispatch.md R111 to R115). -/
def effectInIdle (w : Word) (s : State) : State :=
  match decode w with
  | .ok .nop => s
  | .ok .generate => generate (clearReport s)
  | .ok .abort => clearReport s
  | .ok .select => (validate (clearReport s)).2
  | .ok .loadState => loadState (clearReport s)
  | .ok .step => stepCmd (clearReport s)
  | .error _ => raiseError .illegalCommand 0 (clearReport s)

/-- What a command word does while BUSY (40_command_dispatch.md R112 to R114). -/
def effectInBusy (w : Word) (s : State) : State :=
  match decode w with
  | .ok .nop => s
  | .ok .abort => abortRun s
  | _ => dropWord s

/-- The three cases of `dispatch`, for any word (40_command_dispatch.md R110). -/
theorem command_cases (w : Word) (s : State) :
    (s.status.phase = .halted ∧ command w s = .next s)
      ∨ (s.status.phase ≠ .halted ∧ s.status.busy = true ∧ command w s = .next (effectInBusy w s))
      ∨ (s.status.phase ≠ .halted ∧ s.status.busy = false ∧ command w s = .next (effectInIdle w s)) := by
  unfold command effectInBusy effectInIdle
  by_cases hh : s.status.phase = .halted
  · refine .inl ⟨hh, ?_⟩
    rcases decode w with e | (_ | _ | _ | _ | _ | _) <;>
      simp [commandIllegal, exec, execNop, execGenerate, execAbort, execSelect, execLoadState, execStep, acceptIdle,
        gate_halted hh]
  · cases hb : s.status.busy
    · refine .inr (.inr ⟨hh, rfl, ?_⟩)
      rcases decode w with e | (_ | _ | _ | _ | _ | _) <;>
        simp [commandIllegal, exec, execNop, execGenerate, execAbort, execSelect, execLoadState, execStep, acceptIdle,
          gate_idle hh hb]
    · refine .inr (.inl ⟨hh, rfl, ?_⟩)
      rcases decode w with e | (_ | _ | _ | _ | _ | _) <;>
        simp [commandIllegal, exec, execNop, execGenerate, execAbort, execSelect, execLoadState, execStep, acceptIdle,
          gate_busy hh hb]

end Sys2Proof.Machine
end

