-- ==== Sys2Proof/Laws/Enforcer.lean ====
section
/-! SUPPORT. The grouping of a stream as samples come in, and that the enforcer's registers hold it
(44_run_length_enforcer.md R190 to R192). -/

namespace Sys2Proof.Machine

theorem toNat_countMax (a b : Count) : (countMax a b).toNat = max a.toNat b.toNat := by
  unfold countMax; split <;> omega

theorem toNat_countMin (a b : Count) : (countMin a b).toNat = min a.toNat b.toNat := by
  unfold countMin; split <;> omega

theorem groups_ne_nil {l : List Bool} (h : l ≠ []) : groups l ≠ [] := by
  cases l with
  | nil => exact absurd rfl h
  | cons b l =>
    unfold groups
    split
    · simp
    · split <;> simp

/-- A further sample either lengthens the last group or opens a new one (44_run_length_enforcer.md R190). -/
theorem groups_snoc (l : List Bool) (b : Bool) (r : List (Bool × Nat)) (v : Bool) (k : Nat)
    (h : groups l = r ++ [(v, k)]) :
    groups (l ++ [b]) = if v = b then r ++ [(v, k + 1)] else r ++ [(v, k), (b, 1)] := by
  induction l generalizing r v k with
  | nil => simp [groups] at h
  | cons a l ih =>
    rw [List.cons_append, groups]
    rw [groups] at h
    cases hl : groups l with
    | nil =>
      have : l = [] := by by_contra hn; exact groups_ne_nil hn hl
      subst this
      rw [hl] at h
      have h' : [(a, 1)] = r ++ [(v, k)] := h
      obtain ⟨rfl, h2⟩ : r = [] ∧ (a, 1) = (v, k) := by cases r <;> simp_all
      obtain ⟨rfl, rfl⟩ := Prod.mk.inj h2
      by_cases hb : a = b
      · subst hb; simp [groups]
      · have : b ≠ a := fun e => hb e.symm
        simp [groups, hb, this]
    | cons g gs =>
      rw [hl] at h
      obtain ⟨gv, gk⟩ := g
      simp only at h
      by_cases hga : gv = a
      · rw [if_pos hga] at h
        cases r with
        | nil =>
          obtain ⟨h1, rfl⟩ := List.cons.inj h
          obtain ⟨rfl, rfl⟩ := Prod.mk.inj h1
          rw [ih [] gv gk hl]
          by_cases hb : gv = b
          · subst hb; simp [hga]
          · subst hga; simp [hb]
        | cons q r =>
          obtain ⟨h1, h2⟩ := List.cons.inj h
          rw [ih ((gv, gk) :: r) v k (by rw [hl, h2]; rfl)]
          by_cases hb : v = b <;> simp [hb, hga, ← h1]
      · rw [if_neg hga] at h
        cases r with
        | nil => simp at h
        | cons q r =>
          obtain ⟨h1, h2⟩ := List.cons.inj h
          rw [ih r v k (by rw [hl]; exact h2)]
          cases r with
          | nil =>
            obtain ⟨h3, -⟩ := List.cons.inj h2
            obtain ⟨rfl, rfl⟩ := Prod.mk.inj h3
            by_cases hb : gv = b
            · subst hb; simp [hga, ← h1]
            · simp [hb, hga, ← h1]
          | cons p r =>
            obtain ⟨h3, -⟩ := List.cons.inj h2
            by_cases hb : v = b <;> simp [hb, hga, ← h1, ← h3]

theorem maxOf_append (l m : List Nat) : maxOf (l ++ m) = max (maxOf l) (maxOf m) := by
  induction l with
  | nil => simp [maxOf]
  | cons a l ih => simp only [maxOf, List.cons_append, List.foldr_cons] at *; omega

theorem minOf_le (l : List Nat) : minOf l ≤ 2 ^ 64 - 1 := by
  induction l with
  | nil => simp [minOf]
  | cons a l ih => simp only [minOf, List.foldr_cons] at *; omega

theorem minOf_append (l m : List Nat) : minOf (l ++ m) = min (minOf l) (minOf m) := by
  induction l with
  | nil => have := minOf_le m; simp only [minOf, List.nil_append, List.foldr_nil] at *; omega
  | cons a l ih => simp only [minOf, List.cons_append, List.foldr_cons] at *; omega

/-- The groups of a stream add up to its length. -/
theorem sum_runLengths (l : List Bool) : (runLengths l).sum = l.length := by
  induction l with
  | nil => rfl
  | cons a l ih =>
    simp only [runLengths] at *
    rw [groups]
    cases hl : groups l with
    | nil =>
      rw [hl] at ih
      simp only [List.map_nil, List.sum_nil] at ih
      simp [← ih]
    | cons g gs =>
      rw [hl] at ih
      obtain ⟨gv, gk⟩ := g
      simp only [List.map_cons, List.sum_cons] at ih
      simp only
      split <;> simp only [List.map_cons, List.sum_cons, List.length_cons] <;> omega

/-- The last group ends in the last sample. -/
theorem groups_last {l : List Bool} (h : l ≠ []) : ∃ r v k, groups l = r ++ [(v, k)] ∧ l.getLast? = some v := by
  induction l with
  | nil => exact absurd rfl h
  | cons a l ih =>
    rw [groups]
    by_cases hl : l = []
    · subst hl; exact ⟨[], a, 1, by simp [groups], by simp⟩
    · obtain ⟨r, v, k, hg, hv⟩ := ih hl
      have hlast : (a :: l).getLast? = some v := by
        cases l with
        | nil => exact absurd rfl hl
        | cons c l => rw [List.getLast?_cons_cons]; exact hv
      rw [hg]
      cases r with
      | nil =>
        by_cases hva : v = a
        · exact ⟨[], v, k + 1, by simp [hva], hlast⟩
        · exact ⟨[(a, 1)], v, k, by simp [hva], hlast⟩
      | cons g r =>
        obtain ⟨gv, gk⟩ := g
        by_cases hva : gv = a
        · exact ⟨(gv, gk + 1) :: r, v, k, by simp [hva], hlast⟩
        · exact ⟨(a, 1) :: (gv, gk) :: r, v, k, by simp [hva], hlast⟩

/-- `Holds` with the last group named. -/
theorem holds_of_groups {e : Enforcer} {l : List Bool} {r : List (Bool × Nat)} {v : Bool} {k : Nat}
    (hg : groups l = r ++ [(v, k)]) :
    e.Holds l ↔ e.hasRun = true ∧ e.curVal = v ∧ e.rlCurLen.toNat = k
      ∧ e.rlMax.toNat = maxOf (r.map Prod.snd) ∧ e.rlMin.toNat = minOf (r.map Prod.snd) := by
  have hl : l ≠ [] := by rintro rfl; simp [groups] at hg
  obtain ⟨r', v', k', hg', hv⟩ := groups_last hl
  obtain ⟨rfl, h2⟩ := List.append_inj' (hg.symm.trans hg') rfl
  obtain ⟨rfl, rfl⟩ := Prod.mk.inj (List.cons.inj h2).1
  unfold Enforcer.Holds
  rw [if_neg hl, hv]
  simp only [runLengths, hg, List.map_append, List.map_cons, List.map_nil, List.getLast?_concat, List.dropLast_concat,
    Option.some.injEq]
  constructor
  · rintro ⟨h1, h2, h3, h4, h5⟩; exact ⟨h1, h2.symm, h3.symm, h4, h5⟩
  · rintro ⟨h1, h2, h3, h4, h5⟩; exact ⟨h1, h2.symm, h3.symm, h4, h5⟩

/-- One more sample keeps the grouping (44_run_length_enforcer.md R190, R191). -/
theorem Enforcer.Holds.update {e : Enforcer} {l : List Bool} (h : e.Holds l) (hl : l.length + 1 < 2 ^ 64) (b : Bool) :
    (e.update b).Holds (l ++ [b]) := by
  by_cases hn : l = []
  · subst hn
    obtain rfl : e = .reset := by simpa [Enforcer.Holds] using h
    rw [List.nil_append, holds_of_groups (r := []) (v := b) (k := 1) (by simp [groups])]
    simp [Enforcer.update, Enforcer.reset, maxOf, minOf]
  · obtain ⟨r, v, k, hg, -⟩ := groups_last hn
    rw [holds_of_groups hg] at h
    obtain ⟨h1, rfl, rfl, h4, h5⟩ := h
    have hk : e.rlCurLen.toNat ≤ l.length := by
      have := sum_runLengths l
      simp only [runLengths, hg, List.map_append, List.map_cons, List.map_nil, List.sum_append, List.sum_cons,
        List.sum_nil] at this
      omega
    have hg' := groups_snoc l b r _ _ hg
    by_cases hb : e.curVal = b
    · rw [if_pos hb] at hg'
      rw [holds_of_groups hg']
      simp only [Enforcer.update, h1, hb]
      refine ⟨by simp, by simp, ?_, by simpa using h4, by simpa using h5⟩
      simp only [Bool.not_true, Bool.false_eq_true, if_false, beq_self_eq_true, if_true, BitVec.toNat_add]
      rw [Nat.mod_eq_of_lt]
      · simp
      · simp; omega
    · rw [if_neg hb] at hg'
      rw [holds_of_groups (r := r ++ [(e.curVal, e.rlCurLen.toNat)]) (v := b) (k := 1) (by rw [hg']; simp)]
      have hb' : (b == e.curVal) = false := by simpa using fun h => hb h.symm
      simp only [Enforcer.update, h1, hb']
      simp only [Bool.not_true, Bool.false_eq_true, if_false, List.map_append, List.map_cons, List.map_nil, maxOf_append,
        minOf_append, toNat_countMax, toNat_countMin, h4, h5]
      have h64 := minOf_le (r.map Prod.snd)
      refine ⟨trivial, trivial, rfl, by simp [maxOf], ?_⟩
      simp only [minOf, List.foldr_cons, List.foldr_nil]
      have := e.rlCurLen.isLt
      omega

/-- The current run is no longer than the stream. -/
theorem Enforcer.Holds.cur_le {e : Enforcer} {l : List Bool} (h : e.Holds l) : e.rlCurLen.toNat ≤ l.length := by
  by_cases hn : l = []
  · subst hn
    obtain rfl : e = .reset := by simpa [Enforcer.Holds] using h
    simp [Enforcer.reset]
  · obtain ⟨r, v, k, hg, -⟩ := groups_last hn
    rw [holds_of_groups hg] at h
    have := sum_runLengths l
    simp only [runLengths, hg, List.map_append, List.map_cons, List.map_nil, List.sum_append, List.sum_cons,
      List.sum_nil] at this
    omega

/-- The close of CHECK makes RL_MAX and RL_MIN those of all groups (44_run_length_enforcer.md R191, R192). -/
theorem Enforcer.Holds.close {e : Enforcer} {l : List Bool} (h : e.Holds l) :
    e.close.rlMax.toNat = maxOf (runLengths l) ∧ e.close.rlMin.toNat = minOf (runLengths l) := by
  by_cases hn : l = []
  · subst hn
    obtain rfl : e = .reset := by simpa [Enforcer.Holds] using h
    simp [Enforcer.close, Enforcer.reset, runLengths, groups, maxOf, minOf]
  · obtain ⟨r, v, k, hg, -⟩ := groups_last hn
    rw [holds_of_groups hg] at h
    obtain ⟨h1, rfl, rfl, h4, h5⟩ := h
    simp only [Enforcer.close, h1, if_true, toNat_countMax, toNat_countMin, runLengths, hg, List.map_append, List.map_cons,
      List.map_nil, maxOf_append, minOf_append, h4, h5]
    have h64 := minOf_le (r.map Prod.snd)
    have := e.rlCurLen.isLt
    simp only [maxOf, minOf, List.foldr_cons, List.foldr_nil]
    omega

end Sys2Proof.Machine
end

