-- ==== Sys2Proof/Laws/Lfsr.lean ====
section
/-! SUPPORT. The bits of one LFSR step (42_lfsr_engine.md R151), the properties of the tap table (41_width_selector.md R140),
and the iterated step. -/

namespace Sys2Proof.Machine

theorem getLsbD_lowMask {n i : Nat} (hn : n ≤ 31) : (lowMask n).getLsbD i = decide (i < n) := by
  simp only [lowMask, BitVec.getLsbD_ofNat, Nat.testBit_two_pow_sub_one]
  by_cases h : i < n
  · simp [h]; omega
  · simp [h]

theorem toNat_lowMask {n : Nat} (hn : n ≤ 31) : (lowMask n).toNat = 2 ^ n - 1 := by
  have h : 2 ^ n ≤ 2 ^ 31 := Nat.pow_le_pow_right (by decide) hn
  simp only [lowMask, BitVec.toNat_ofNat]
  exact Nat.mod_eq_of_lt (by omega)

theorem toNat_lowBits {n : Nat} (hn : n ≤ 31) (v : Bits31) : (lowBits n v).toNat = v.toNat % 2 ^ n := by
  simp [lowBits, toNat_lowMask hn, Nat.and_two_pow_sub_one_eq_mod]

theorem toNat_loadValue {n : Nat} (hn : n ≤ 31) (w : Word) : (loadValue n w).toNat = w.toNat % 2 ^ n := by
  simp only [loadValue, toNat_lowBits hn, BitVec.toNat_setWidth]
  exact Nat.mod_mod_of_dvd _ (Nat.pow_dvd_pow 2 hn)

/-- The feedback bit enters the input end. -/
theorem lfsrNext_getLsbD_zero (s : Bits31) (n : Nat) (taps : Bits31) :
    (lfsrNext s n taps).getLsbD 0 = feedback s taps := by
  simp [lfsrNext]

/-- Every other bit comes from its neighbour; the bit shifted past the output end is gone. -/
theorem lfsrNext_getLsbD_succ {n : Nat} (hn : n ≤ 31) (s taps : Bits31) (i : Nat) :
    (lfsrNext s n taps).getLsbD (i + 1) = (decide (i + 1 < n) && s.getLsbD i) := by
  simp only [lfsrNext, BitVec.getLsbD_or, BitVec.getLsbD_and, BitVec.getLsbD_shiftLeft, BitVec.getLsbD_setWidth,
    getLsbD_lowMask hn]
  by_cases h : i + 1 < n
  · have : i + 1 < 31 := by omega
    simp [h, this]
  · simp [h]

theorem toNat_lt_of_getLsbD {n : Nat} {v : Bits31} (h : ∀ i, n ≤ i → v.getLsbD i = false) : v.toNat < 2 ^ n :=
  Nat.lt_pow_two_of_testBit _ fun i hi => by simpa [BitVec.getLsbD] using h i hi

theorem getLsbD_of_toNat_lt {n i : Nat} {v : Bits31} (h : v.toNat < 2 ^ n) (hi : n ≤ i) : v.getLsbD i = false :=
  Nat.testBit_lt_two_pow (Nat.lt_of_lt_of_le h (Nat.pow_le_pow_right (by decide) hi))

theorem lfsrNext_lt {n : Nat} (h1 : 1 ≤ n) (hn : n ≤ 31) (s taps : Bits31) : (lfsrNext s n taps).toNat < 2 ^ n :=
  toNat_lt_of_getLsbD fun i hi => by
    obtain ⟨j, rfl⟩ : ∃ j, i = j + 1 := ⟨i - 1, by omega⟩
    rw [lfsrNext_getLsbD_succ hn]
    simp; omega

theorem topBit_eq {n : Nat} (h : 1 ≤ n) (v : Bits31) : topBit n v = v.getLsbD (n - 1) := by
  simp [topBit]; omega

/-- XOR of the bits of `s` at the positions of a tap list (42_lfsr_engine.md R151). -/
def xorAt (taps : List Nat) (s : Bits31) : Bool := taps.foldl (fun x t => x != s.getLsbD (t - 1)) false

theorem foldl_bne (f : Nat → Bool) (l : List Nat) (x : Bool) :
    l.foldl (fun x t => x != f t) x = (x != l.foldl (fun x t => x != f t) false) := by
  induction l generalizing x with
  | nil => simp
  | cons a l ih => rw [List.foldl_cons, List.foldl_cons, ih, ih (false != f a)]; cases x <;> cases f a <;> simp

/-- Every tap list of the table: the width first, then smaller taps (41_width_selector.md R140). -/
theorem tapList_shape {n : Nat} (h2 : 2 ≤ n) (hn : n ≤ 31) :
    ∃ r, tapList n = n :: r ∧ ∀ t ∈ r, 1 ≤ t ∧ t < n := by
  have : ∀ n, n < 32 → 2 ≤ n → tapList n = n :: (tapList n).tail ∧ ∀ t ∈ (tapList n).tail, 1 ≤ t ∧ t < n := by decide
  exact ⟨_, this n (by omega) h2⟩

/-- With a table mask the feedback bit is the XOR of the bits at the tap positions. -/
theorem feedback_tapRom {n : Nat} (h2 : 2 ≤ n) (hn : n ≤ 31) (s : Bits31) :
    feedback s (tapRom n) = xorAt (tapList n) s := by
  have e : ∀ n, tapRom n = tapMask (tapList n) := fun _ => rfl
  rw [e]
  interval_cases n <;>
    simp [tapList, tapMask, feedback, parity, parityUpTo, xorAt, Bool.xor_comm]

/-- The bit at the output end is always a tap: two states that agree below it and feed back the same bit agree on it too
(42_lfsr_engine.md R152). -/
theorem lfsrNext_inj {n : Nat} (h2 : 2 ≤ n) (hn : n ≤ 31) {s t : Bits31} (hs : s.toNat < 2 ^ n) (ht : t.toNat < 2 ^ n)
    (h : lfsrNext s n (tapRom n) = lfsrNext t n (tapRom n)) : s = t := by
  have low : ∀ i, i + 1 < n → s.getLsbD i = t.getLsbD i := fun i hi => by
    have := congrArg (·.getLsbD (i + 1)) h
    simpa [lfsrNext_getLsbD_succ hn, hi] using this
  have top : s.getLsbD (n - 1) = t.getLsbD (n - 1) := by
    have hf : xorAt (tapList n) s = xorAt (tapList n) t := by
      rw [← feedback_tapRom h2 hn, ← feedback_tapRom h2 hn, ← lfsrNext_getLsbD_zero s n, ← lfsrNext_getLsbD_zero t n, h]
    obtain ⟨r, hr, hlt⟩ := tapList_shape h2 hn
    simp only [xorAt, hr, List.foldl_cons] at hf
    rw [foldl_bne, foldl_bne (fun i => t.getLsbD (i - 1))] at hf
    have he : r.foldl (fun x i => x != s.getLsbD (i - 1)) false = r.foldl (fun x i => x != t.getLsbD (i - 1)) false := by
      have : ∀ x, r.foldl (fun x i => x != s.getLsbD (i - 1)) x = r.foldl (fun x i => x != t.getLsbD (i - 1)) x := by
        clear hr hf
        intro x
        induction r generalizing x with
        | nil => rfl
        | cons a r ih =>
          have ha := hlt a (by simp)
          rw [List.foldl_cons, List.foldl_cons, low (a - 1) (by omega)]
          exact ih (fun i hi => hlt i (by simp [hi])) _
      exact this false
    rw [he] at hf
    simpa using hf
  refine BitVec.eq_of_getLsbD_eq fun i _ => ?_
  rcases Nat.lt_trichotomy (i + 1) n with hi | hi | hi
  · exact low i hi
  · obtain rfl : i = n - 1 := by omega
    exact top
  · rw [getLsbD_of_toNat_lt hs (by omega), getLsbD_of_toNat_lt ht (by omega)]

theorem lfsrNext_zero (n : Nat) (taps : Bits31) : lfsrNext 0#31 n taps = 0#31 := by
  simp [lfsrNext, feedback, parity, parityUpTo]

/-- A nonzero state never steps to zero (42_lfsr_engine.md R152, R154). -/
theorem lfsrNext_ne_zero {n : Nat} (h2 : 2 ≤ n) (hn : n ≤ 31) {s : Bits31} (hs : s.toNat < 2 ^ n) (h0 : s ≠ 0) :
    lfsrNext s n (tapRom n) ≠ 0 := fun h =>
  h0 (lfsrNext_inj h2 hn hs (Nat.two_pow_pos n) (h.trans (lfsrNext_zero n _).symm))

theorem lfsrIter_lt {n : Nat} (h1 : 1 ≤ n) (hn : n ≤ 31) {s : Bits31} (hs : s.toNat < 2 ^ n) (taps : Bits31) (k : Nat) :
    (lfsrIter n taps s k).toNat < 2 ^ n := by
  cases k with
  | zero => exact hs
  | succ k => exact lfsrNext_lt h1 hn _ _

theorem lfsrIter_ne_zero {n : Nat} (h2 : 2 ≤ n) (hn : n ≤ 31) {s : Bits31} (hs : s.toNat < 2 ^ n) (h0 : s ≠ 0) (k : Nat) :
    lfsrIter n (tapRom n) s k ≠ 0 := by
  induction k with
  | zero => exact h0
  | succ k ih => exact lfsrNext_ne_zero h2 hn (lfsrIter_lt (by omega) hn hs _ k) ih

/-- Position i of the state after k steps is position i - j of the state j steps earlier. -/
theorem lfsrIter_getLsbD_add {n : Nat} (hn : n ≤ 31) (taps s : Bits31) (k i j : Nat) (h : i + j < n) :
    (lfsrIter n taps s (k + j)).getLsbD (i + j) = (lfsrIter n taps s k).getLsbD i := by
  induction j with
  | zero => rfl
  | succ j ih =>
    rw [← Nat.add_assoc, ← Nat.add_assoc, lfsrIter, lfsrNext_getLsbD_succ hn]
    simp [ih (by omega)]; omega

end Sys2Proof.Machine
end

