-- ==== Sys2Proof/Laws/Selector.lean ====
section
/-! SUPPORT. The integer ceiling (00_scope.md R7), and what validation can do, said once (41_width_selector.md R130 to R137). -/

namespace Sys2Proof.Machine

/-- `ceilDiv a b` is the least c with c * b ≥ a. -/
theorem ceilDiv_eq {a b c : Nat} (hb : 1 ≤ b) (h1 : a ≤ c * b) (h2 : (c - 1) * b < a) : ceilDiv a b = c := by
  unfold ceilDiv
  obtain ⟨d, rfl⟩ : ∃ d, c = d + 1 := by
    cases c with
    | zero => simp at h1; omega
    | succ d => exact ⟨d, rfl⟩
  simp only [Nat.add_sub_cancel] at h2
  rw [Nat.add_mul, Nat.one_mul] at h1
  rw [Nat.div_eq_iff (by omega)]
  rw [Nat.mul_comm] at h1 h2
  constructor
  · rw [Nat.add_mul, Nat.mul_comm d b]; omega
  · rw [Nat.add_mul, Nat.mul_comm d b]; omega

theorem ceilDiv_spec {a b : Nat} (hb : 1 ≤ b) (ha : 1 ≤ a) : a ≤ ceilDiv a b * b ∧ (ceilDiv a b - 1) * b < a := by
  unfold ceilDiv
  have h := Nat.div_add_mod (a + b - 1) b
  have h' := Nat.mod_lt (a + b - 1) hb
  rw [Nat.mul_comm] at h
  refine ⟨by omega, ?_⟩
  rw [Nat.sub_mul]
  omega

/-- No check before the width fails exactly on a pair with 1 ≤ b < a, 2 ≤ a, and a legal mode. -/
theorem paramError_eq_none {a b : Int} {m : Word} :
    paramError a b m = none ↔ 2 ≤ a ∧ 1 ≤ b ∧ b < a ∧ (m = modeRandom ∨ m = modeOnes) := by
  unfold paramError
  split_ifs with h1 h2 h3 h4
  · simp; omega
  · simp; omega
  · simp; omega
  · simp only [false_iff]; tauto
  · simp only [true_iff]; exact ⟨by omega, by omega, by omega, by tauto⟩

/-- What every error of validation leaves: the report over the fresh state with WIDTH_CALC as it was reached. -/
theorem validate_cases (s : State) :
    (∃ code detail, paramError (sint32 s.host.tmax) (sint32 s.host.tmin) s.host.initMode = some (code, detail)
        ∧ validate s = (false, raiseError code detail (clearDerived (latchParams s))))
      ∨ (paramError (sint32 s.host.tmax) (sint32 s.host.tmin) s.host.initMode = none
          ∧ validate s =
            selectWidth (sint32 s.host.tmax).toNat (sint32 s.host.tmin).toNat (clearDerived (latchParams s))) := by
  unfold validate
  simp only [clearDerived_latched, latchParams_latched]
  cases h : paramError (sint32 s.host.tmax) (sint32 s.host.tmin) s.host.initMode with
  | none => exact .inr ⟨rfl, rfl⟩
  | some e => exact .inl ⟨e.1, e.2, rfl, rfl⟩

/-- The width check: out of range, or a selection (41_width_selector.md R136, R137). -/
theorem selectWidth_cases (a b : Nat) (s : State) :
    ((ceilDiv a b < 2 ∨ 31 < ceilDiv a b)
        ∧ selectWidth a b s = (false, raiseError .configurationError 0 (setWidthCalc (ceilDiv a b) s)))
      ∨ (2 ≤ ceilDiv a b ∧ ceilDiv a b ≤ 31
          ∧ selectWidth a b s = (true, setSelection (ceilDiv a b) b (setWidthCalc (ceilDiv a b) s))) := by
  unfold selectWidth
  by_cases h : ceilDiv a b < 2 ∨ ceilDiv a b > 31
  · exact .inl ⟨h, by simp only [h, if_true]⟩
  · exact .inr ⟨by omega, by omega, by simp only [h, if_false]⟩

/-- Validation fails exactly when it leaves ERROR = 1 behind a cleared report. -/
theorem validate_ok_iff (s : State) : (validate (clearReport s)).1 = !(validate (clearReport s)).2.status.error := by
  rcases validate_cases (clearReport s) with ⟨c, d, -, h⟩ | ⟨-, h⟩
  · simp [h]
  · rcases selectWidth_cases (sint32 (clearReport s).host.tmax).toNat (sint32 (clearReport s).host.tmin).toNat
      (clearDerived (latchParams (clearReport s))) with ⟨-, h'⟩ | ⟨-, -, h'⟩ <;> rw [h, h'] <;> rfl

theorem sint32_lt (v : Word) : sint32 v < 2 ^ 31 := by
  have := v.isLt
  unfold sint32
  split
  · omega
  · rename_i h
    simp only [BitVec.msb_eq_decide] at h
    simp at h
    omega

/-- The fresh state is what latching and clearing make of a cleared report. -/
theorem fresh_eq (s : State) : clearDerived (latchParams (clearReport s)) = s.fresh := rfl

end Sys2Proof.Machine
end

