-- ==== Sys2Proof/Laws/Invariant.lean ====
section
/-! SUPPORT. What each operation does to the invariant of the block (10_state.md R34, R56; 43_prbs_generator.md R176;
44_run_length_enforcer.md R191): one lemma per operation, for the proofs about steps and runs. -/

namespace Sys2Proof.Machine

/-! ### Frames of the invariant -/

/-- A selection looks at the latched parameters and the selector's registers alone. -/
theorem Selected.congr {s t : State} (h : Selected s) (hl : t.latched = s.latched) (hs : t.sel = s.sel) : Selected t := by
  obtain ⟨h1, h2, h3, h4, h5, h6, h7, h8, h9⟩ := h
  simp only [State.tmin, State.tmax] at *
  constructor <;> simp only [State.tmin, State.tmax, hl, hs] <;> assumption

/-- The selection's invariant looks at the latched parameters, the selector's registers and STATE alone. -/
theorem SelectionInv.congr {s t : State} (h : SelectionInv s) (hl : t.latched = s.latched) (hs : t.sel = s.sel)
    (hr : t.lfsr.state = s.lfsr.state) : SelectionInv t :=
  ⟨by rw [hr, hs]; exact h.state_lt, fun w => (h.selected (hs ▸ w)).congr hl hs, fun w => by
    rw [hr, hs]; exact h.unselected (hs ▸ w)⟩

/-- The selection does not look at STATUS. -/
theorem SelectionInv.setStatus {s : State} (h : SelectionInv s) (f : Status) : SelectionInv { s with status := f } :=
  h.congr rfl rfl rfl

/-- The invariant does not look at the host registers, the reads, the inputs or the cycle count. -/
theorem State.Inv.frame {s : State} (h : s.Inv) (a : HostRegs) (r : List ReadResult) (i : List CycleIn) (c : Nat) :
    ({ s with host := a, reads := r, inputs := i, cycle := c } : State).Inv where
  status := h.status
  selection := h.selection.congr rfl rfl rfl
  counts := ⟨h.counts.cnt_le, h.counts.cur_le, h.counts.max_le⟩
  seeding p := let k := h.seeding p; ⟨k.width_ne, k.lfsr_empty, k.cnt_zero, k.enf_empty, k.out_empty⟩
  running p := let k := h.running p
    ⟨k.width_ne, ⟨k.seed_ok.seed_ne, k.seed_ok.seed_lt, k.seed_ok.seed_ones⟩, k.cnt_le, k.steps_eq, k.state_eq, k.last_eq,
      k.out_length, k.stream, k.enf_eq, k.enf_holds⟩
  run_more := h.run_more
  check_all := h.check_all
  checked p := let k := h.checked p
    ⟨k.width_ne, ⟨k.seed_ok.seed_ne, k.seed_ok.seed_lt, k.seed_ok.seed_ones⟩, k.cnt_eq, k.steps_eq, k.state_eq, k.last_eq,
      k.out_length, k.stream, k.enf_eq, k.max_eq, k.min_eq⟩
  done_exact := h.done_exact
  halted_inexact := h.halted_inexact
  halted_detail := h.halted_detail

/-- In IDLE without DONE only STATUS, the selection and the counts matter. -/
theorem State.Inv.of_idle {s : State} (h1 : StatusInv s.status) (h2 : SelectionInv s) (h3 : CountsLe s)
    (hp : s.status.phase = .idle) (hd : s.status.done = false) : s.Inv where
  status := h1
  selection := h2
  counts := h3
  seeding p := by simp [hp] at p
  running p := by simp [hp] at p
  run_more p := by simp [hp] at p
  check_all p := by simp [hp] at p
  checked p := by simp [hp, hd] at p
  done_exact p := by simp [hd] at p
  halted_inexact p := by simp [hp] at p
  halted_detail p := by simp [hp] at p

/-- Empty counts. -/
theorem CountsLe.of_empty {s : State} (h1 : s.sampleCnt = 0) (h2 : s.enf.rlCurLen = 0) (h3 : s.enf.rlMax = 0) :
    CountsLe s :=
  ⟨by simp [h1], by simp [h2], by simp [h3]⟩

/-! ### STATUS -/

theorem StatusInv.reset : StatusInv .reset := by
  constructor <;> simp [Status.reset]

theorem StatusInv.drop {f : Status} (h : StatusInv f) : StatusInv f.drop :=
  ⟨h.busy_iff, h.fatal_iff, h.fatal_error, h.done_clean, h.no_error_no_code, h.run_clean, h.no_type_mismatch⟩

/-- Outside HALTED the cleared report is consistent. -/
theorem StatusInv.clearReport {f : Status} (h : StatusInv f) (hp : f.phase ≠ .halted) : StatusInv f.clearReport where
  busy_iff := h.busy_iff
  fatal_iff := h.fatal_iff
  fatal_error p := absurd (h.fatal_iff.mp p) hp
  done_clean p := by simp at p
  no_error_no_code _ := ⟨rfl, rfl⟩
  run_clean _ := rfl
  no_type_mismatch := by simp

/-- An error reported in IDLE. -/
theorem StatusInv.raise {f : Status} (h : StatusInv f) (hp : f.phase = .idle) (hd : f.done = false) {c : ErrCode}
    (hc : c ≠ .typeMismatch) (d : BitVec 2) : StatusInv (f.raise c d) where
  busy_iff := h.busy_iff
  fatal_iff := h.fatal_iff
  fatal_error p := by have := h.fatal_iff.mp p; simp [hp] at this
  done_clean p := by simp [hd] at p
  no_error_no_code p := by simp at p
  run_clean p := by have := h.busy_iff.mp p; simp [hp] at this
  no_type_mismatch := hc

theorem StatusInv.startRun {f : Status} (h : StatusInv f) (hp : f.phase = .idle) (hd : f.done = false)
    (he : f.error = false) : StatusInv f.startRun where
  busy_iff := by simp
  fatal_iff := by have := h.fatal_iff; simp [hp] at this; simp [this]
  fatal_error p := by have := h.fatal_iff.mp p; simp [hp] at this
  done_clean p := by simp [hd] at p
  no_error_no_code := h.no_error_no_code
  run_clean _ := he
  no_type_mismatch := h.no_type_mismatch

theorem StatusInv.not_fatal {f : Status} (h : StatusInv f) (hp : f.phase ≠ .halted) : f.fatal = false := by
  have := h.fatal_iff
  cases hf : f.fatal
  · rfl
  · exact absurd (this.mp hf) hp

/-- A run's STATUS: no error, not done. -/
theorem StatusInv.of_run {f : Status} (h : StatusInv f) (hp : f.phase = .seed ∨ f.phase = .run ∨ f.phase = .check) :
    f.busy = true ∧ f.error = false ∧ f.done = false ∧ f.fatal = false := by
  have hb := h.busy_iff.mpr hp
  refine ⟨hb, h.run_clean hb, ?_, h.not_fatal (by rcases hp with e | e | e <;> simp [e])⟩
  cases hd : f.done
  · rfl
  · have := (h.done_clean hd).2
    simp [this] at hp

/-- A run moves from one of its phases to another. -/
theorem StatusInv.move {f : Status} (h : StatusInv f) (hp : f.phase = .seed ∨ f.phase = .run ∨ f.phase = .check) {p : Phase}
    (hq : p = .seed ∨ p = .run ∨ p = .check) : StatusInv { f with phase := p } := by
  obtain ⟨hb, he, hd, hf⟩ := h.of_run hp
  exact {
    busy_iff := by simp [hb, hq]
    fatal_iff := by simp only [hf]; rcases hq with e | e | e <;> simp [e]
    fatal_error := by simp [hf]
    done_clean := by simp [hd]
    no_error_no_code := h.no_error_no_code
    run_clean := h.run_clean
    no_type_mismatch := h.no_type_mismatch }

theorem StatusInv.abortRun {f : Status} (h : StatusInv f) (hp : f.phase ≠ .halted) : StatusInv f.abortRun where
  busy_iff := by simp
  fatal_iff := by simp [h.not_fatal hp]
  fatal_error p := by simp [h.not_fatal hp] at p
  done_clean p := by simp at p
  no_error_no_code p := by simp at p
  run_clean p := by simp at p
  no_type_mismatch := by simp

theorem StatusInv.pass {f : Status} (h : StatusInv f) (hp : f.phase = .check) : StatusInv f.pass := by
  obtain ⟨-, he, -, hf⟩ := h.of_run (.inr (.inr hp))
  exact {
    busy_iff := by simp
    fatal_iff := by simp [hf]
    fatal_error := by simp [hf]
    done_clean := by simp [he]
    no_error_no_code := h.no_error_no_code
    run_clean := by simp
    no_type_mismatch := h.no_type_mismatch }

theorem StatusInv.violate {f : Status} (h : StatusInv f) (hp : f.phase = .check) (x y : Bool) :
    StatusInv (f.violate x y) := by
  obtain ⟨-, -, hd, -⟩ := h.of_run (.inr (.inr hp))
  constructor <;> simp [hd]

/-! ### Integers of a selection -/

/-- The numbers of a selected width: Tmin is a natural t ≥ 1 below 2^31, LEN = (2^n - 1) * t, and n ≤ 31. -/
theorem Selected.nat {s : State} (h : Selected s) :
    ∃ t : Nat, s.tmin = t ∧ 1 ≤ t ∧ t < 2 ^ 31 ∧ s.sel.len.toNat = (2 ^ s.sel.width.toNat - 1) * t
      ∧ s.sel.width.toNat ≤ 31 := by
  have h1 := h.tmin_pos
  have h2 := sint32_lt s.latched.pTmin
  have h3 := s.sel.width.isLt
  refine ⟨s.tmin.toNat, by omega, by omega, by simp only [State.tmin] at *; omega, ?_, by omega⟩
  have h4 := h.len_eq
  have h5 : (1 : Nat) ≤ 2 ^ s.sel.width.toNat := Nat.one_le_two_pow
  obtain ⟨t, ht⟩ : ∃ t : Nat, s.tmin = t := ⟨s.tmin.toNat, by omega⟩
  rw [ht, Int.toNat_natCast]
  rw [ht] at h4
  have : (2 : Int) ^ s.sel.width.toNat - 1 = ((2 ^ s.sel.width.toNat - 1 : Nat) : Int) := by push_cast [h5]; rfl
  rw [this] at h4
  exact_mod_cast h4

/-- LEN is below 2^62 (41_width_selector.md R142). -/
theorem Selected.len_lt {s : State} (h : Selected s) : s.sel.len.toNat < 2 ^ 62 := by
  obtain ⟨t, -, -, ht, hl, hw⟩ := h.nat
  have : 2 ^ s.sel.width.toNat ≤ 2 ^ 31 := Nat.pow_le_pow_right (by decide) hw
  have : (2 ^ s.sel.width.toNat - 1) * t ≤ (2 ^ 31 - 1) * (2 ^ 31 - 1) := Nat.mul_le_mul (by omega) (by omega)
  omega

theorem ceilDiv_succ_of_mod_eq {j t : Nat} (ht : 1 ≤ t) (h : j % t = 0) :
    ceilDiv j t = j / t ∧ ceilDiv (j + 1) t = j / t + 1 := by
  obtain ⟨q, rfl⟩ := Nat.dvd_of_mod_eq_zero h
  rw [Nat.mul_div_cancel_left _ ht]
  constructor
  · cases q with
    | zero => simp only [ceilDiv, Nat.mul_zero, Nat.zero_add]; exact Nat.div_eq_of_lt (by omega)
    | succ q => exact ceilDiv_eq ht (by rw [Nat.mul_comm]) (by simp [Nat.mul_add, Nat.mul_comm]; omega)
  · exact ceilDiv_eq ht (by rw [Nat.add_mul, Nat.mul_comm]; omega) (by simp [Nat.mul_comm])

theorem ceilDiv_succ_of_mod_ne {j t : Nat} (ht : 1 ≤ t) (h : j % t ≠ 0) :
    ceilDiv j t = j / t + 1 ∧ ceilDiv (j + 1) t = j / t + 1 := by
  have h1 := Nat.div_add_mod j t
  have h2 := Nat.mod_lt j ht
  rw [Nat.mul_comm] at h1
  exact ⟨ceilDiv_eq ht (by rw [Nat.add_mul]; omega) (by simp; omega), ceilDiv_eq ht (by rw [Nat.add_mul]; omega) (by simp; omega)⟩

/-! ### Validation, LOAD_STATE, STEP -/

theorem SelectionInv.fresh (s : State) : SelectionInv (clearDerived (latchParams s)) where
  state_lt := by simp [LfsrRegs.reset]
  selected h := absurd rfl h
  unselected _ := ⟨rfl, rfl, rfl, rfl⟩

/-- A successful selection satisfies the selection's invariant. -/
theorem SelectionInv.select {s : State} (hp : paramError s.tmax s.tmin s.latched.pMode = none)
    (hc2 : 2 ≤ ceilDiv s.tmax.toNat s.tmin.toNat) (hc : ceilDiv s.tmax.toNat s.tmin.toNat ≤ 31) (h0 : s.lfsr.state = 0)
    (hwc : s.sel.widthCalc.toNat = ceilDiv s.tmax.toNat s.tmin.toNat) :
    SelectionInv (setSelection (ceilDiv s.tmax.toNat s.tmin.toNat) s.tmin.toNat s)
      ∧ (setSelection (ceilDiv s.tmax.toNat s.tmin.toNat) s.tmin.toNat s).sel.width ≠ 0 := by
  obtain ⟨ha, hb, hab, hm⟩ := paramError_eq_none.mp hp
  generalize hcd : ceilDiv s.tmax.toNat s.tmin.toNat = c at *
  have hw : (BitVec.ofNat 5 c).toNat = c := by simp; omega
  have hp2 : 2 ^ c ≤ 2 ^ 31 := Nat.pow_le_pow_right (by decide) hc
  have hp1 : 1 ≤ 2 ^ c := Nat.one_le_two_pow
  have hlt := sint32_lt s.latched.pTmin
  have hne : BitVec.ofNat 5 c ≠ 0 := by intro e; rw [e] at hw; simp at hw; omega
  refine ⟨⟨?_, fun _ => ⟨?_, ?_, ?_, ?_, hb, hab, hm, ?_, ?_⟩, fun e => absurd e hne⟩, hne⟩
  · simp only [setSelection_lfsr, h0]; exact Nat.two_pow_pos _
  · simpa [hw] using hc2
  · simp only [setSelection_sel, hw, hwc]
  · simp only [setSelection_sel, hw]
  · simp only [setSelection_sel, hw, BitVec.toNat_ofNat]
    exact Nat.mod_eq_of_lt (by omega)
  · simp only [setSelection_sel, hw]; exact hcd.symm
  · simp only [setSelection_sel, hw, BitVec.toNat_ofNat]
    have hm : (2 ^ c - 1) * s.tmin.toNat ≤ 2 ^ 31 * 2 ^ 31 :=
      Nat.mul_le_mul (by omega) (by simp only [State.tmin] at *; omega)
    rw [Nat.mod_eq_of_lt (by omega)]
    push_cast [hp1]
    have : (s.tmin.toNat : Int) = s.tmin := by omega
    rw [this]; rfl

/-- What validation leaves, from IDLE with a cleared report: the invariant; and if it succeeds, no error and all that a run's
start needs. -/
theorem validate_inv {s : State} (h : s.Inv) (hp : s.status.phase = .idle) :
    (validate (clearReport s)).2.Inv ∧ (validate (clearReport s)).2.status.phase = .idle
      ∧ ((validate (clearReport s)).1 = true →
          (validate (clearReport s)).2.status = s.status.clearReport
            ∧ (validate (clearReport s)).2.sel.width ≠ 0 ∧ (validate (clearReport s)).2.lfsr = .reset
            ∧ (validate (clearReport s)).2.sampleCnt = 0 ∧ (validate (clearReport s)).2.enf = .reset) := by
  have hc := h.status.clearReport (by simp [hp])
  rcases validate_cases (clearReport s) with ⟨c, d, hpe, hv⟩ | ⟨hpe, hv⟩
  · rw [hv]
    have hct : c ≠ .typeMismatch := by
      rintro rfl
      unfold paramError at hpe
      split_ifs at hpe <;> simp at hpe
    exact ⟨.of_idle (hc.raise hp rfl hct d) ((SelectionInv.fresh _).setStatus _) (.of_empty rfl rfl rfl) hp rfl, hp, by simp⟩
  · rw [hv]
    rcases selectWidth_cases (sint32 (clearReport s).host.tmax).toNat (sint32 (clearReport s).host.tmin).toNat
      (clearDerived (latchParams (clearReport s))) with ⟨-, hw⟩ | ⟨hc2, hc31, hw⟩
    · rw [hw]
      refine ⟨.of_idle (hc.raise hp rfl (by simp) 0) (SelectionInv.setStatus ?_ _) (.of_empty rfl rfl rfl) hp rfl, hp, by simp⟩
      exact ⟨by simp [LfsrRegs.reset], fun e => absurd rfl e, fun _ => ⟨rfl, rfl, rfl, rfl⟩⟩
    · rw [hw]
      have := SelectionInv.select (s := setWidthCalc (ceilDiv (sint32 (clearReport s).host.tmax).toNat
        (sint32 (clearReport s).host.tmin).toNat) (clearDerived (latchParams (clearReport s)))) hpe hc2 hc31 rfl
        (by rw [setWidthCalc_sel]; exact Nat.mod_eq_of_lt (Nat.lt_of_le_of_lt hc31 (by decide)))
      exact ⟨.of_idle hc this.1 (.of_empty rfl rfl rfl) hp rfl, hp, fun _ => ⟨rfl, this.2, rfl, rfl, rfl⟩⟩

theorem generate_inv {s : State} (h : s.Inv) (hp : s.status.phase = .idle) : (generate (clearReport s)).Inv := by
  obtain ⟨h1, h2, h3⟩ := validate_inv h hp
  unfold generate
  cases hv : (validate (clearReport s)).1
  · rw [if_neg (by simp)]; exact h1
  · rw [if_pos rfl]
    obtain ⟨hs, hw, hl, hc, he⟩ := h3 hv
    have hst : StatusInv (startRun (validate (clearReport s)).2).status :=
      h1.status.startRun h2 (by rw [hs]; rfl) (by rw [hs]; rfl)
    have hd : (startRun (validate (clearReport s)).2).status.done = false := by
      simp [hs]
    exact {
      status := hst
      selection := h1.selection.congr rfl rfl rfl
      counts := ⟨h1.counts.cnt_le, h1.counts.cur_le, h1.counts.max_le⟩
      seeding := fun _ => ⟨hw, hl, hc, he, rfl⟩
      running := fun p => by simp at p
      run_more := fun p => by simp at p
      check_all := fun p => by simp at p
      checked := fun p => by simp only [hd] at p; simp at p
      done_exact := fun p => by simp only [hd] at p; simp at p
      halted_inexact := fun p => by simp at p
      halted_detail := fun p => by simp at p }

/-- A new STATE that fits the width keeps the selection's invariant, once a width is selected. -/
theorem SelectionInv.setLfsr {s t : State} (h : SelectionInv s) (hw : s.sel.width ≠ 0) (hl : t.latched = s.latched)
    (hs : t.sel = s.sel) (hr : t.lfsr.state.toNat < 2 ^ s.sel.width.toNat) : SelectionInv t :=
  ⟨by rw [hs]; exact hr, fun w => (h.selected (hs ▸ w)).congr hl hs, fun w => absurd (hs ▸ w) hw⟩

theorem width_le (s : State) : s.sel.width.toNat ≤ 31 := by have := s.sel.width.isLt; omega

theorem clearReport_inv {s : State} (h : s.Inv) (hp : s.status.phase = .idle) : (clearReport s).Inv :=
  .of_idle (h.status.clearReport (by simp [hp])) (h.selection.setStatus _)
    ⟨h.counts.cnt_le, h.counts.cur_le, h.counts.max_le⟩ hp rfl

theorem raiseError_inv {s : State} (h : s.Inv) (hp : s.status.phase = .idle) (hd : s.status.done = false) {c : ErrCode}
    (hc : c ≠ .typeMismatch) (d : BitVec 2) : (raiseError c d s).Inv :=
  .of_idle (h.status.raise hp hd hc d) (h.selection.setStatus _)
    ⟨h.counts.cnt_le, h.counts.cur_le, h.counts.max_le⟩ hp hd

theorem loadState_inv {s : State} (h : s.Inv) (hp : s.status.phase = .idle) (hd : s.status.done = false) :
    (loadState s).Inv := by
  unfold loadState
  split
  · exact raiseError_inv h hp hd (by simp) 0
  · rename_i hw
    split
    · exact raiseError_inv h hp hd (by simp) 0
    · refine .of_idle h.status (h.selection.setLfsr hw rfl rfl ?_)
        ⟨h.counts.cnt_le, h.counts.cur_le, h.counts.max_le⟩ hp hd
      simp only [toNat_loadValue (width_le s)]
      exact Nat.mod_lt _ (Nat.two_pow_pos _)

theorem stepCmd_inv {s : State} (h : s.Inv) (hp : s.status.phase = .idle) (hd : s.status.done = false) :
    (stepCmd s).Inv := by
  unfold stepCmd
  split
  · exact raiseError_inv h hp hd (by simp) 0
  · rename_i hw
    split
    · exact raiseError_inv h hp hd (by simp) 0
    · have := (h.selection.selected hw).width_ge
      exact .of_idle h.status (h.selection.setLfsr hw rfl rfl (lfsrNext_lt (by omega) (width_le s) _ _))
        ⟨h.counts.cnt_le, h.counts.cur_le, h.counts.max_le⟩ hp hd

/-! ### The core steps -/

/-- A STATUS that stays in the phase and adds no DONE keeps the invariant. -/
theorem State.Inv.setStatus {s : State} (h : s.Inv) {f : Status} (hf : StatusInv f) (hp : f.phase = s.status.phase)
    (hd : f.done = true → s.status.done = true) (hde : f.errDetail = s.status.errDetail) :
    ({ s with status := f } : State).Inv where
  status := hf
  selection := h.selection.setStatus f
  counts := ⟨h.counts.cnt_le, h.counts.cur_le, h.counts.max_le⟩
  seeding p := let k := h.seeding (hp ▸ p); ⟨k.width_ne, k.lfsr_empty, k.cnt_zero, k.enf_empty, k.out_empty⟩
  running p := let k := h.running (hp ▸ p)
    ⟨k.width_ne, ⟨k.seed_ok.seed_ne, k.seed_ok.seed_lt, k.seed_ok.seed_ones⟩, k.cnt_le, k.steps_eq, k.state_eq, k.last_eq,
      k.out_length, k.stream, k.enf_eq, k.enf_holds⟩
  run_more p := h.run_more (hp ▸ p)
  check_all p := h.check_all (hp ▸ p)
  checked p := let k := h.checked (p.imp hd fun e => hp ▸ e)
    ⟨k.width_ne, ⟨k.seed_ok.seed_ne, k.seed_ok.seed_lt, k.seed_ok.seed_ones⟩, k.cnt_eq, k.steps_eq, k.state_eq, k.last_eq,
      k.out_length, k.stream, k.enf_eq, k.max_eq, k.min_eq⟩
  done_exact p := h.done_exact (hd p)
  halted_inexact p := h.halted_inexact (hp ▸ p)
  halted_detail p := hde.trans (h.halted_detail (hp ▸ p))

theorem dropWord_inv {s : State} (h : s.Inv) : (dropWord s).Inv := h.setStatus h.status.drop rfl id rfl

theorem abortRun_inv {s : State} (h : s.Inv) (hp : s.status.phase ≠ .halted) : (abortRun s).Inv :=
  .of_idle (h.status.abortRun hp) (h.selection.setStatus _)
    ⟨h.counts.cnt_le, h.counts.cur_le, h.counts.max_le⟩ rfl rfl

/-- Choosing a seed starts RUN (43_prbs_generator.md R172). -/
theorem setSeed_inv {s : State} (h : s.Inv) (hp : s.status.phase = .seed) {v : Bits31} (hv : v ≠ 0)
    (hlt : v.toNat < 2 ^ s.sel.width.toNat) (ho : s.latched.pMode = modeOnes → v = lowMask s.sel.width.toNat) :
    (setSeed v s).Inv := by
  have hs := h.seeding hp
  have hsel := h.selection.selected hs.width_ne
  obtain ⟨t, ht, ht1, -, hl, -⟩ := hsel.nat
  have hst := h.status.move (.inl hp) (p := .run) (.inr (.inl rfl))
  obtain ⟨-, -, hd, -⟩ := h.status.of_run (.inl hp)
  have hpos : 0 < s.sel.len.toNat := by
    rw [hl]
    have : 2 ^ 2 ≤ 2 ^ s.sel.width.toNat := Nat.pow_le_pow_right (by decide) hsel.width_ge
    exact Nat.mul_pos (by omega) ht1
  exact {
    status := hst
    selection := h.selection.setLfsr hs.width_ne rfl rfl hlt
    counts := ⟨h.counts.cnt_le, h.counts.cur_le, h.counts.max_le⟩
    seeding := fun p => by simp at p
    running := fun _ => {
      width_ne := hs.width_ne
      seed_ok := ⟨hv, hlt, ho⟩
      cnt_le := by simp [hs.cnt_zero]
      steps_eq := by
        simp only [setSeed_lfsr, setSeed_sampleCnt, hs.cnt_zero, hs.lfsr_empty, LfsrRegs.reset]
        exact (ceilDiv_succ_of_mod_eq (t := (setSeed v s).tmin.toNat) (j := 0)
          (by show 1 ≤ s.tmin.toNat; omega) (Nat.zero_mod _)).1.trans (Nat.zero_div _) |>.symm
      state_eq := by simp [hs.lfsr_empty, LfsrRegs.reset, lfsrIter]
      last_eq := by simp [hs.lfsr_empty, LfsrRegs.reset]
      out_length := by simp [hs.out_empty, hs.cnt_zero]
      stream := by intro k hk; simp [hs.out_empty] at hk
      enf_eq := by simp [Enforcer.track, State.outVals, hs.out_empty, hs.enf_empty]
      enf_holds := by simp [Enforcer.Holds, State.outVals, hs.out_empty, hs.enf_empty] }
    run_more := fun _ => by simp [hs.cnt_zero, hpos]
    check_all := fun p => by simp at p
    checked := fun p => by simp [hd] at p
    done_exact := fun p => by simp [hd] at p
    halted_inexact := fun p => by simp at p
    halted_detail := fun p => by simp at p }

theorem seedStep_inv {s : State} (h : s.Inv) (hp : s.status.phase = .seed) (rng : Option Bits31) :
    (seedStep rng s).Inv := by
  have hs := h.seeding hp
  have hw := (h.selection.selected hs.width_ne).width_ge
  have hm := toNat_lowMask (width_le s)
  have hpow : 2 ^ 2 ≤ 2 ^ s.sel.width.toNat := Nat.pow_le_pow_right (by decide) hw
  unfold seedStep
  split
  · refine setSeed_inv h hp (fun e => ?_) (by omega) (fun _ => rfl)
    rw [e] at hm
    simp at hm
    omega
  · rename_i hno
    split
    · split
      · exact h
      · split
        · exact h
        · rename_i draw hd
          refine setSeed_inv h hp hd ?_ (fun e => absurd e hno)
          rw [toNat_lowBits (width_le s)]
          exact Nat.mod_lt _ (Nat.two_pow_pos _)
    · exact h

/-- In a run with Tmin = t ≥ 1 the first copy of a raw bit is due when t divides SAMPLE_CNT. -/
theorem firstCopy_eq {s : State} {t : Nat} (ht : s.tmin = t) (h1 : 1 ≤ t) :
    firstCopy s = (s.sampleCnt.toNat % t == 0) := by
  have : (1 : Int) ≤ s.tmin := by omega
  unfold firstCopy remainder
  simp only [State.tmin] at *
  rw [if_pos this, ht, Int.toNat_natCast]

/-- One accepted sample (43_prbs_generator.md R174 to R176). -/
theorem runStep_inv {s : State} (h : s.Inv) (hp : s.status.phase = .run) : (runStep s).Inv := by
  have hr := h.running (.inl hp)
  have hmore := h.run_more hp
  have hsel := h.selection.selected hr.width_ne
  obtain ⟨t, ht, ht1, -, hl, hw⟩ := hsel.nat
  have hlen := hsel.len_lt
  have htt : s.tmin.toNat = t := by omega
  have hj : (s.sampleCnt + 1).toNat = s.sampleCnt.toNat + 1 := by
    rw [BitVec.toNat_add]; exact Nat.mod_eq_of_lt (by simp; omega)
  have hjle : (s.sampleCnt + 1).toNat ≤ s.sel.len.toNat := by omega
  have hq : s.sampleCnt.toNat / t < 2 ^ 31 := by
    have h1 : 2 ^ s.sel.width.toNat ≤ 2 ^ 31 := Nat.pow_le_pow_right (by decide) hw
    have h2 : s.sampleCnt.toNat / t < 2 ^ s.sel.width.toNat - 1 :=
      Nat.div_lt_of_lt_mul (by rw [Nat.mul_comm, ← hl]; exact hmore)
    omega
  obtain ⟨hb, -, hd, -⟩ := h.status.of_run (.inr (.inl hp))
  -- the LFSR after the step, and the sample
  have hadv : (advanceLfsr s).seed = s.lfsr.seed
      ∧ (advanceLfsr s).stepCnt.toNat = s.sampleCnt.toNat / t + 1
      ∧ (advanceLfsr s).stepCnt.toNat = ceilDiv (s.sampleCnt.toNat + 1) t
      ∧ (advanceLfsr s).state = lfsrIter s.sel.width.toNat s.sel.taps s.lfsr.seed (s.sampleCnt.toNat / t + 1)
      ∧ (advanceLfsr s).lastOut = rawBit s.sel.width.toNat s.sel.taps s.lfsr.seed (s.sampleCnt.toNat / t) := by
    have hst := hr.steps_eq
    have hse := hr.state_eq
    have hla := hr.last_eq
    rw [htt] at hst
    unfold advanceLfsr
    rw [firstCopy_eq ht ht1]
    by_cases hm : s.sampleCnt.toNat % t = 0
    · obtain ⟨c1, c2⟩ := ceilDiv_succ_of_mod_eq ht1 hm
      rw [c1] at hst
      have hk : (s.lfsr.stepCnt + 1).toNat = s.sampleCnt.toNat / t + 1 := by
        rw [BitVec.toNat_add, hst]; exact Nat.mod_eq_of_lt (by simp; omega)
      rw [if_pos (by simpa using hm), c2]
      refine ⟨rfl, hk, hk, ?_, ?_⟩ <;> simp only [LfsrRegs.stepOnce, lfsrStep, hse, hst] <;> rfl
    · obtain ⟨c1, c2⟩ := ceilDiv_succ_of_mod_ne ht1 hm
      rw [c1] at hst
      rw [if_neg (by simpa using hm), c2]
      refine ⟨rfl, hst, hst, by rw [hse, hst], ?_⟩
      rw [hla, hst, if_neg (Nat.succ_ne_zero _), Nat.add_sub_cancel]
  obtain ⟨a1, a2, a3, a4, a5⟩ := hadv
  have hlt : (advanceLfsr s).state.toNat < 2 ^ s.sel.width.toNat := by
    rw [a4]
    exact lfsrNext_lt (by have := hsel.width_ge; omega) hw _ _
  have hfin : finalSample s = decide (s.sampleCnt.toNat + 1 = s.sel.len.toNat) := rfl
  have hst' : StatusInv (runStep s).status ∧ ((runStep s).status.phase = if finalSample s then .check else .run)
      ∧ (runStep s).status.done = false := by
    rw [runStep_status]
    split
    · exact ⟨h.status.move (.inr (.inl hp)) (.inr (.inr rfl)), rfl, hd⟩
    · exact ⟨h.status, hp, hd⟩
  obtain ⟨hs1, hs2, hs3⟩ := hst'
  have hcurle : s.enf.rlCurLen.toNat ≤ s.outVals.length ∧ s.enf.rlMax.toNat ≤ s.sel.len.toNat :=
    ⟨hr.enf_holds.cur_le, h.counts.max_le⟩
  rw [State.outVals, List.length_map, hr.out_length] at hcurle
  obtain ⟨hcur, hmx⟩ : (runStep s).enf.rlCurLen.toNat ≤ s.sel.len.toNat ∧ (runStep s).enf.rlMax.toNat ≤ s.sel.len.toNat := by
    rw [runStep_enf]
    unfold Enforcer.update
    split
    · exact ⟨by simp; omega, hcurle.2⟩
    · split
      · refine ⟨?_, hcurle.2⟩
        rw [BitVec.toNat_add]
        exact Nat.le_trans (Nat.mod_le _ _) (by simp; omega)
      · refine ⟨by simp; omega, ?_⟩
        rw [toNat_countMax]
        omega
  have hidle : (runStep s).status.phase ≠ .seed ∧ (runStep s).status.phase ≠ .halted := by
    rw [hs2]; split <;> simp
  exact {
    status := hs1
    selection := h.selection.setLfsr hr.width_ne rfl rfl hlt
    counts := ⟨hjle, hcur, hmx⟩
    seeding := fun p => absurd p hidle.1
    running := fun _ => {
      width_ne := hr.width_ne
      seed_ok := ⟨by simpa [a1] using hr.seed_ok.seed_ne, by simpa [a1] using hr.seed_ok.seed_lt,
        by simpa [a1] using hr.seed_ok.seed_ones⟩
      cnt_le := hjle
      steps_eq := by
        show (advanceLfsr s).stepCnt.toNat = ceilDiv (s.sampleCnt + 1).toNat s.tmin.toNat
        rw [hj, htt]; exact a3
      state_eq := by simp only [runStep_sel, runStep_lfsr, a1, a2]; exact a4
      last_eq := by
        simp only [runStep_sel, runStep_lfsr, a1, a2]
        rw [if_neg (Nat.succ_ne_zero _), Nat.add_sub_cancel]; exact a5
      out_length := by simp only [runStep_out, List.length_append, hr.out_length, runStep_sampleCnt, hj]; rfl
      stream := by
        intro k hk
        simp only [runStep_out, List.length_append, List.length_cons, List.length_nil] at hk
        show (runStep s).out[k]? = some {
          val := rawBit s.sel.width.toNat s.sel.taps (advanceLfsr s).seed (k / s.tmin.toNat)
          last := decide (k + 1 = s.sel.len.toNat) }
        rw [a1, runStep_out]
        rcases Nat.lt_or_ge k s.out.length with hk' | hk'
        · rw [List.getElem?_append_left hk']; exact hr.stream k hk'
        · obtain rfl : k = s.out.length := by omega
          rw [List.getElem?_concat_length, a5, hfin, hr.out_length, htt]
      enf_eq := by
        show s.enf.update _ = _
        rw [hr.enf_eq]
        simp [Enforcer.track, State.outVals]
      enf_holds := by
        have := hr.enf_holds.update (by rw [State.outVals, List.length_map, hr.out_length]; omega) (advanceLfsr s).lastOut
        simpa [State.outVals] using this }
    run_more := fun p => by
      rw [runStep_sampleCnt, runStep_sel, hj]
      rw [hs2, hfin] at p
      split at p
      · simp at p
      · rename_i hne
        simp only [decide_eq_true_eq] at hne
        exact Nat.lt_of_le_of_ne hmore hne
    check_all := fun p => by
      rw [runStep_sampleCnt, runStep_sel]
      rw [hs2, hfin] at p
      split at p
      · rename_i he
        exact BitVec.eq_of_toNat_eq (by rw [hj]; simpa using he)
      · simp at p
    checked := fun p => p.elim (fun e => by rw [hs3] at e; simp at e) fun e => absurd e hidle.2
    done_exact := fun e => by rw [hs3] at e; simp at e
    halted_inexact := fun e => absurd e hidle.2
    halted_detail := fun e => absurd e hidle.2 }

/-- The check of a full stream (44_run_length_enforcer.md R192 to R194). -/
theorem checkStep_inv {s : State} (h : s.Inv) (hp : s.status.phase = .check) : (checkStep s).Inv := by
  have hr := h.running (.inr hp)
  have hcnt := h.check_all hp
  obtain ⟨hmax, hmin⟩ := hr.enf_holds.close
  have hsel := h.selection.selected hr.width_ne
  obtain ⟨t, ht, ht1, -, hl, -⟩ := hsel.nat
  -- LEN is PERIOD times Tmin, so the run took PERIOD steps
  have hsteps : s.lfsr.stepCnt.toNat = s.sel.period.toNat := by
    rw [hr.steps_eq, hcnt, hl, ht, Int.toNat_natCast, hsel.period_eq,
      (ceilDiv_succ_of_mod_eq (j := (2 ^ s.sel.width.toNat - 1) * t) ht1 (Nat.mul_mod_left _ _)).1, Nat.mul_div_cancel _ ht1]
  have hper : s.sel.period.toNat ≠ 0 := by
    have : 2 ^ 2 ≤ 2 ^ s.sel.width.toNat := Nat.pow_le_pow_right (by decide) hsel.width_ge
    rw [hsel.period_eq]; omega
  have hlast := hr.last_eq
  have hstate := hr.state_eq
  rw [hsteps] at hlast hstate
  rw [if_neg hper] at hlast
  have hchk : Checked (checkStep s) := {
    width_ne := hr.width_ne
    seed_ok := ⟨hr.seed_ok.seed_ne, hr.seed_ok.seed_lt, hr.seed_ok.seed_ones⟩
    cnt_eq := hcnt
    steps_eq := hsteps
    state_eq := hstate
    last_eq := hlast
    out_length := by rw [checkStep_out, hr.out_length, hcnt]; rfl
    stream := hr.stream
    enf_eq := congrArg Enforcer.close hr.enf_eq
    max_eq := hmax
    min_eq := hmin }
  have hcounts : CountsLe (checkStep s) := ⟨h.counts.cnt_le, by
      rw [checkStep_enf, checkStep_sel]; unfold Enforcer.close; split <;> exact h.counts.cur_le, by
      rw [checkStep_enf, checkStep_sel]; unfold Enforcer.close
      split
      · simp only [toNat_countMax]; exact Nat.max_le.mpr ⟨h.counts.max_le, h.counts.cur_le⟩
      · exact h.counts.max_le⟩
  by_cases hok : (okMax s && okMin s) = true
  · have hst : (checkStep s).status = s.status.pass := by rw [checkStep_status, if_pos hok]
    have hph : (checkStep s).status.phase = .idle := by rw [hst]; rfl
    exact {
      status := hst ▸ h.status.pass hp
      selection := h.selection.congr rfl rfl rfl
      counts := hcounts
      seeding := fun p => by simp [hph] at p
      running := fun p => by simp [hph] at p
      run_more := fun p => by simp [hph] at p
      check_all := fun p => by simp [hph] at p
      checked := fun _ => hchk
      done_exact := fun _ => by simpa [okMax, okMin, State.tmax, State.tmin] using hok
      halted_inexact := fun p => by simp [hph] at p
      halted_detail := fun p => by simp [hph] at p }
  · have hst : (checkStep s).status = s.status.violate (okMax s) (okMin s) := by rw [checkStep_status, if_neg hok]
    have hph : (checkStep s).status.phase = .halted := by rw [hst]; rfl
    have hdn : (checkStep s).status.done = false := by rw [hst]; exact (h.status.of_run (.inr (.inr hp))).2.2.1
    exact {
      status := hst ▸ h.status.violate hp _ _
      selection := h.selection.congr rfl rfl rfl
      counts := hcounts
      seeding := fun p => by simp [hph] at p
      running := fun p => by simp [hph] at p
      run_more := fun p => by simp [hph] at p
      check_all := fun p => by simp [hph] at p
      checked := fun _ => hchk
      done_exact := fun p => by simp [hdn] at p
      halted_inexact := fun _ => by simpa [okMax, okMin, State.tmax, State.tmin] using hok
      halted_detail := fun _ => by rw [hst]; rfl }

theorem coreStep_inv {s : State} (h : s.Inv) (c : CycleIn) : (coreStep c s).Inv := by
  unfold coreStep
  split
  · exact h
  · exact seedStep_inv h (by assumption) _
  · split
    · exact runStep_inv h (by assumption)
    · exact h
  · exact checkStep_inv h (by assumption)
  · exact h

/-! ### Commands and reset -/

/-- In IDLE: not BUSY and not HALTED (10_state.md R31, R34). -/
theorem StatusInv.idle_of {f : Status} (h : StatusInv f) (hp : f.phase ≠ .halted) (hb : f.busy = false) :
    f.phase = .idle := by
  have := h.busy_iff
  rw [hb] at this
  cases hf : f.phase <;> simp_all

theorem command_inv {s t : State} (h : s.Inv) {w : Word} (ht : command w s = .next t) : t.Inv := by
  rcases command_cases w s with ⟨-, e⟩ | ⟨hp, -, e⟩ | ⟨hp, hb, e⟩ <;> obtain rfl := Host.Outcome.next.inj (e.symm.trans ht)
  · exact h
  · unfold effectInBusy
    split
    · exact h
    · exact abortRun_inv h hp
    · exact dropWord_inv h
  · have hi := h.status.idle_of hp hb
    have hc := clearReport_inv h hi
    unfold effectInIdle
    split
    · exact h
    · exact generate_inv h hi
    · exact hc
    · exact (validate_inv h hi).1
    · exact loadState_inv hc hi rfl
    · exact stepCmd_inv hc hi rfl
    · exact raiseError_inv hc hi rfl (by simp) 0

theorem resetBlock_inv (s : State) : (resetBlock s).Inv :=
  .of_idle .reset ⟨by simp [LfsrRegs.reset, Selection.reset], fun e => absurd rfl e, fun _ => ⟨rfl, rfl, rfl, rfl⟩⟩
    (.of_empty rfl rfl rfl) rfl rfl

end Sys2Proof.Machine
end

