-- ==== Sys2Proof/Laws/PerInstr.lean ====
section
/-! SUPPORT. Per instruction: the command word of a well-formed command has RES = 0 and an OP of at most 5 (30_encoding.md R90
to R93). -/

/-- RES is 0 and OP is 5 or less in the command word. -/
def Sys2Proof.Laws.EncodedWord.Statement (i : Sys2Proof.Instr) : Prop :=
  i.wellFormed = true → Sys2Proof.cmdRes (Sys2Proof.encode i) = 0 ∧ (Sys2Proof.cmdOp (Sys2Proof.encode i)).toNat ≤ 5

theorem Sys2Proof.Laws.EncodedWord.nop : Sys2Proof.Laws.EncodedWord.Statement .nop := fun _ => by decide
theorem Sys2Proof.Laws.EncodedWord.generate : Sys2Proof.Laws.EncodedWord.Statement .generate := fun _ => by decide
theorem Sys2Proof.Laws.EncodedWord.abort : Sys2Proof.Laws.EncodedWord.Statement .abort := fun _ => by decide
theorem Sys2Proof.Laws.EncodedWord.select : Sys2Proof.Laws.EncodedWord.Statement .select := fun _ => by decide
theorem Sys2Proof.Laws.EncodedWord.loadState : Sys2Proof.Laws.EncodedWord.Statement .loadState := fun _ => by decide
theorem Sys2Proof.Laws.EncodedWord.step : Sys2Proof.Laws.EncodedWord.Statement .step := fun _ => by decide
end

