-- ==== Sys2Proof/Laws/Period.lean ====
section
/-! SUPPORT. Polynomials over GF(2), as naturals, acting on LFSR states: bit i of a polynomial stands for i steps. The
characteristic polynomial of a table mask acts as zero, so powers of the step can be computed modulo it by squaring, and a
closed computation (`Period.cert`) decides the period of every nonzero state (42_lfsr_engine.md R153, R156). -/

namespace Sys2Proof.Machine.Period

theorem parityUpTo_xor (a b : Bits31) (k : Nat) : parityUpTo (a ^^^ b) k = (parityUpTo a k != parityUpTo b k) := by
  induction k with
  | zero => rfl
  | succ k ih => simp only [parityUpTo, ih, BitVec.getLsbD_xor]; cases a.getLsbD k <;> cases b.getLsbD k <;> simp

theorem feedback_xor (a b t : Bits31) : feedback (a ^^^ b) t = (feedback a t != feedback b t) := by
  unfold feedback parity
  rw [← parityUpTo_xor]
  congr 1
  ext i hi
  simp only [BitVec.getElem_and, BitVec.getElem_xor]
  cases a[i] <;> cases b[i] <;> cases t[i] <;> rfl

/-- The step is linear. -/
theorem lfsrNext_xor {n : Nat} (hn : n ≤ 31) (a b t : Bits31) :
    lfsrNext (a ^^^ b) n t = lfsrNext a n t ^^^ lfsrNext b n t := by
  apply BitVec.eq_of_getLsbD_eq
  intro i _
  cases i with
  | zero => simp only [BitVec.getLsbD_xor, lfsrNext_getLsbD_zero, feedback_xor]
  | succ i => simp only [BitVec.getLsbD_xor, lfsrNext_getLsbD_succ hn]; cases decide (i + 1 < n) <;> simp

theorem lfsrIter_add (n : Nat) (t s : Bits31) (a b : Nat) : lfsrIter n t s (a + b) = lfsrIter n t (lfsrIter n t s b) a := by
  induction a with
  | zero => simp [lfsrIter]
  | succ a ih => rw [Nat.succ_add, lfsrIter, lfsrIter, ih]

/-- The action of polynomial `p` (its low `m` bits) on state `s`, by Horner's rule: a doubling is one LFSR step. -/
def act (n : Nat) (t : Bits31) : Nat → Nat → Bits31 → Bits31
  | 0, _, _ => 0
  | m + 1, p, s => (if p % 2 = 1 then s else 0) ^^^ lfsrNext (act n t m (p / 2) s) n t

theorem xor_cancel (x y z : Bits31) : (x ^^^ y) ^^^ (x ^^^ z) = y ^^^ z := by
  rw [BitVec.xor_assoc, ← BitVec.xor_assoc y, BitVec.xor_comm y x, BitVec.xor_assoc, ← BitVec.xor_assoc, BitVec.xor_self,
    BitVec.zero_xor]

theorem act_xor {n : Nat} (hn : n ≤ 31) (t : Bits31) (m : Nat) :
    ∀ p q s, act n t m (p ^^^ q) s = act n t m p s ^^^ act n t m q s := by
  induction m with
  | zero => intro p q s; simp [act]
  | succ m ih =>
    intro p q s
    simp only [act]
    rw [Nat.xor_div_two, ih, lfsrNext_xor hn]
    have : (p ^^^ q) % 2 = (p % 2 + q % 2) % 2 := by rw [Nat.xor_mod_two_eq, Nat.add_mod]
    rcases Nat.mod_two_eq_zero_or_one p with h | h <;> rcases Nat.mod_two_eq_zero_or_one q with h' | h' <;>
      simp [this, h, h'] <;> first | ac_rfl | rw [xor_cancel]

theorem act_zero (n : Nat) (t : Bits31) (m : Nat) (s : Bits31) : act n t m 0 s = 0 := by
  induction m with
  | zero => rfl
  | succ m ih => simp [act, ih, lfsrNext_zero]

theorem act_state_zero (n : Nat) (t : Bits31) (m : Nat) : ∀ p, act n t m p 0 = 0 := by
  induction m with
  | zero => intro p; rfl
  | succ m ih => intro p; simp only [act]; rw [ih]; split <;> simp [lfsrNext_zero]

theorem act_fuel (n : Nat) (t : Bits31) (m : Nat) : ∀ p s, p < 2 ^ m → act n t (m + 1) p s = act n t m p s := by
  induction m with
  | zero =>
    intro p s h
    obtain rfl : p = 0 := by omega
    simp [act_zero]
  | succ m ih =>
    intro p s h
    rw [act, ih _ _ (by omega)]
    rfl

/-- Twice a polynomial acts one step further. -/
theorem act_double (n : Nat) (t : Bits31) (m p : Nat) (s : Bits31) :
    act n t (m + 1) (2 * p) s = lfsrNext (act n t m p s) n t := by
  have h1 : 2 * p % 2 = 0 := by omega
  have h2 : 2 * p / 2 = p := by omega
  simp [act, h1, h2]

theorem act_one (n : Nat) (t : Bits31) (m : Nat) (s : Bits31) : act n t (m + 1) 1 s = s := by
  simp [act, act_zero, lfsrNext_zero]

/-- x^j acts as j steps. -/
theorem act_two_pow (n : Nat) (t : Bits31) (j m : Nat) (s : Bits31) (h : j < m) : act n t m (2 ^ j) s = lfsrIter n t s j := by
  induction j generalizing m with
  | zero =>
    obtain ⟨k, rfl⟩ : ∃ k, m = k + 1 := ⟨m - 1, by omega⟩
    exact act_one n t k s
  | succ j ih =>
    obtain ⟨k, rfl⟩ : ∃ k, m = k + 1 := ⟨m - 1, by omega⟩
    rw [Nat.pow_succ, Nat.mul_comm, act_double, ih k (by omega)]
    rfl

theorem act_lt {n : Nat} (h1 : 1 ≤ n) (hn : n ≤ 31) (t : Bits31) (m p : Nat) {s : Bits31} (hs : s.toNat < 2 ^ n) :
    (act n t m p s).toNat < 2 ^ n := by
  cases m with
  | zero => simp [act]
  | succ m =>
    simp only [act, BitVec.toNat_xor]
    refine Nat.xor_lt_two_pow ?_ (lfsrNext_lt h1 hn _ _)
    split
    · exact hs
    · simp

/-! ### Arithmetic modulo a polynomial -/

/-- One reduction of a polynomial below degree n + 1 by `f` of degree n. -/
def red (n f v : Nat) : Nat := if v.testBit n then v ^^^ f else v

/-- The product of two polynomials modulo `f`; the first has at most `m` bits. -/
def mul (n f : Nat) : Nat → Nat → Nat → Nat
  | 0, _, _ => 0
  | m + 1, a, b => (if a % 2 = 1 then b else 0) ^^^ red n f (2 * mul n f m (a / 2) b)

/-- The e-th power of `y` modulo `f` by squaring; e has at most `k` bits. -/
def pow (n f y : Nat) : Nat → Nat → Nat
  | 0, _ => 1
  | k + 1, e =>
    let h := pow n f y k (e / 2)
    let q := mul n f n h h
    if e % 2 = 1 then mul n f n y q else q

/-- `f` has degree n and acts as zero on n-bit states. -/
structure Kills (n f : Nat) (t : Bits31) : Prop where
  lt : f < 2 ^ (n + 1)
  top : f.testBit n = true
  zero : ∀ s : Bits31, s.toNat < 2 ^ n → act n t (n + 1) f s = 0

theorem red_lt {n f v : Nat} (hf : f < 2 ^ (n + 1)) (hfb : f.testBit n = true) (hv : v < 2 ^ (n + 1)) :
    red n f v < 2 ^ n := by
  have high : ∀ {x i : Nat}, x < 2 ^ (n + 1) → n < i → x.testBit i = false := fun hx hi =>
    Nat.testBit_lt_two_pow (Nat.lt_of_lt_of_le hx (Nat.pow_le_pow_right (by decide) hi))
  unfold red
  apply Nat.lt_pow_two_of_testBit
  intro i hi
  split
  · rename_i h
    rcases Nat.eq_or_lt_of_le hi with e | e
    · subst e; simp [h, hfb]
    · rw [Nat.testBit_xor, high hv e, high hf e]; rfl
  · rename_i h
    rcases Nat.eq_or_lt_of_le hi with e | e
    · subst e; simpa using h
    · exact high hv e

/-- A product acts as the two actions in turn. -/
theorem mul_spec {n f : Nat} {t : Bits31} (hn : n ≤ 31) (hk : Kills n f t) {b : Nat} (hb : b < 2 ^ n) {s : Bits31}
    (hs : s.toNat < 2 ^ n) (m : Nat) :
    ∀ a, mul n f m a b < 2 ^ n ∧ act n t n (mul n f m a b) s = act n t m a (act n t n b s) := by
  induction m with
  | zero => intro a; simp [mul, act, act_zero]
  | succ m ih =>
    intro a
    obtain ⟨i1, i2⟩ := ih (a / 2)
    have hd : 2 * mul n f m (a / 2) b < 2 ^ (n + 1) := by rw [Nat.pow_succ]; omega
    have hr := red_lt hk.lt hk.top hd
    have hred : act n t n (red n f (2 * mul n f m (a / 2) b)) s = lfsrNext (act n t n (mul n f m (a / 2) b) s) n t := by
      rw [← act_fuel _ _ _ _ _ hr, ← act_double]
      unfold red
      split
      · rw [act_xor hn, hk.zero s hs]; simp
      · rfl
    constructor
    · simp only [mul]
      refine Nat.xor_lt_two_pow ?_ hr
      split
      · exact hb
      · exact Nat.two_pow_pos _
    · simp only [mul, act]
      rw [act_xor hn, hred, i2]
      congr 1
      split
      · rfl
      · rw [act_zero]

/-- The action of `y`, k times. -/
def iterAct (n : Nat) (t : Bits31) (y : Nat) : Nat → Bits31 → Bits31
  | 0, s => s
  | k + 1, s => act n t n y (iterAct n t y k s)

theorem iterAct_add (n : Nat) (t : Bits31) (y a b : Nat) (s : Bits31) :
    iterAct n t y (a + b) s = iterAct n t y a (iterAct n t y b s) := by
  induction a with
  | zero => simp [iterAct]
  | succ a ih => rw [Nat.succ_add, iterAct, iterAct, ih]

theorem iterAct_state_zero (n : Nat) (t : Bits31) (y k : Nat) : iterAct n t y k 0 = 0 := by
  induction k with
  | zero => rfl
  | succ k ih => rw [iterAct, ih, act_state_zero]

theorem iterAct_lt {n : Nat} (h1 : 1 ≤ n) (hn : n ≤ 31) (t : Bits31) (y k : Nat) {s : Bits31} (hs : s.toNat < 2 ^ n) :
    (iterAct n t y k s).toNat < 2 ^ n := by
  induction k with
  | zero => exact hs
  | succ k ih => exact act_lt h1 hn _ _ _ ih

/-- x acts as one step. -/
theorem iterAct_two {n : Nat} (h2 : 2 ≤ n) (t : Bits31) (k : Nat) (s : Bits31) : iterAct n t 2 k s = lfsrIter n t s k := by
  induction k with
  | zero => rfl
  | succ k ih => rw [iterAct, ih, lfsrIter]; exact act_two_pow n t 1 n _ (by omega)

/-- A power acts as the repeated action. -/
theorem pow_spec {n f : Nat} {t : Bits31} (h1 : 1 ≤ n) (hn : n ≤ 31) (hk : Kills n f t) {y : Nat} (hy : y < 2 ^ n) (k : Nat) :
    ∀ e, e < 2 ^ k → pow n f y k e < 2 ^ n
      ∧ ∀ s : Bits31, s.toNat < 2 ^ n → act n t n (pow n f y k e) s = iterAct n t y e s := by
  induction k with
  | zero =>
    intro e he
    obtain rfl : e = 0 := by omega
    obtain ⟨m, rfl⟩ : ∃ m, n = m + 1 := ⟨n - 1, by omega⟩
    exact ⟨by simp [pow], fun s _ => act_one _ t m s⟩
  | succ k ih =>
    intro e he
    obtain ⟨i1, i2⟩ := ih (e / 2) (by rw [Nat.pow_succ] at he; omega)
    have sq : ∀ s : Bits31, s.toNat < 2 ^ n →
        act n t n (mul n f n (pow n f y k (e / 2)) (pow n f y k (e / 2))) s = iterAct n t y (e / 2 + e / 2) s := by
      intro s hs
      rw [(mul_spec hn hk i1 hs n _).2, i2 s hs, i2 _ (iterAct_lt h1 hn _ _ _ hs), iterAct_add]
    have sql : mul n f n (pow n f y k (e / 2)) (pow n f y k (e / 2)) < 2 ^ n :=
      (mul_spec hn hk i1 (s := 0) (Nat.two_pow_pos _) n _).1
    simp only [pow]
    split
    · refine ⟨(mul_spec hn hk sql (s := 0) (Nat.two_pow_pos _) n _).1, fun s hs => ?_⟩
      rw [(mul_spec hn hk sql hs n _).2, sq s hs]
      conv_rhs => rw [show e = (e / 2 + e / 2) + 1 by omega]
      rfl
    · refine ⟨sql, fun s hs => ?_⟩
      rw [sq s hs]
      congr 1
      omega

/-! ### The characteristic polynomial of a table mask -/

/-- The lower part of the characteristic polynomial of a tap list: x^(n-t) for each tap t. -/
def poly (n : Nat) (l : List Nat) : Nat := l.foldr (fun t x => 2 ^ (n - t) ^^^ x) 0

theorem poly_lt {n : Nat} (h1 : 1 ≤ n) : ∀ l : List Nat, (∀ x ∈ l, 1 ≤ x) → poly n l < 2 ^ n := by
  intro l
  induction l with
  | nil => intro _; exact Nat.two_pow_pos _
  | cons a l ih =>
    intro h
    have ha := h a (by simp)
    exact Nat.xor_lt_two_pow (Nat.pow_lt_pow_right (by decide) (by omega)) (ih fun x hx => h x (by simp [hx]))

theorem act_poly {n : Nat} (hn : n ≤ 31) (t : Bits31) (l : List Nat) (hl : ∀ x ∈ l, 1 ≤ x ∧ x ≤ n) (s : Bits31) :
    act n t (n + 1) (poly n l) s = l.foldr (fun x a => lfsrIter n t s (n - x) ^^^ a) 0 := by
  induction l with
  | nil => exact act_zero n t _ _
  | cons a l ih =>
    simp only [poly, List.foldr_cons] at *
    rw [act_xor hn, ih fun x hx => hl x (by simp [hx]), act_two_pow n t _ _ _ (by omega)]

theorem getLsbD_foldr_xor (f : Nat → Bits31) (l : List Nat) (i : Nat) :
    (l.foldr (fun x a => f x ^^^ a) 0).getLsbD i = l.foldl (fun b x => b != (f x).getLsbD i) false := by
  induction l with
  | nil => simp
  | cons a l ih => rw [List.foldr_cons, BitVec.getLsbD_xor, ih, List.foldl_cons, foldl_bne _ l (false != _)]; simp

/-- The recurrence of the raw outputs (42_lfsr_engine.md R153), on states. -/
theorem lfsrIter_width {n : Nat} (h2 : 2 ≤ n) (hn : n ≤ 31) {s : Bits31} (hs : s.toNat < 2 ^ n) :
    lfsrIter n (tapRom n) s n = (tapList n).foldr (fun x a => lfsrIter n (tapRom n) s (n - x) ^^^ a) 0 := by
  obtain ⟨r, hr, hlt⟩ := tapList_shape h2 hn
  have hall : ∀ x ∈ tapList n, 1 ≤ x ∧ x ≤ n := by
    rw [hr]; intro x hx
    rcases List.mem_cons.mp hx with rfl | hx
    · omega
    · have := hlt x hx; omega
  apply BitVec.eq_of_getLsbD_eq
  intro i _
  rw [getLsbD_foldr_xor]
  by_cases hi : i < n
  · have e0 : (lfsrIter n (tapRom n) s n).getLsbD i = (lfsrIter n (tapRom n) s (n - i)).getLsbD 0 := by
      have := lfsrIter_getLsbD_add hn (tapRom n) s (n - i) 0 i (by omega)
      rw [show n - i + i = n by omega, Nat.zero_add] at this
      exact this
    rw [e0, show n - i = (n - i - 1) + 1 by omega, lfsrIter, lfsrNext_getLsbD_zero, feedback_tapRom h2 hn, xorAt]
    generalize false = b
    clear hr hlt
    revert hall
    generalize tapList n = l
    intro hall
    induction l generalizing b with
    | nil => rfl
    | cons a l ih =>
      obtain ⟨ha1, ha2⟩ := hall a (by simp)
      have ea : (lfsrIter n (tapRom n) s (n - i - 1)).getLsbD (a - 1) = (lfsrIter n (tapRom n) s (n - a)).getLsbD i := by
        rcases Nat.le_total (a - 1) i with h | h
        · have := lfsrIter_getLsbD_add hn (tapRom n) s (n - i - 1) (a - 1) (i - (a - 1)) (by omega)
          rw [show n - i - 1 + (i - (a - 1)) = n - a by omega, show a - 1 + (i - (a - 1)) = i by omega] at this
          exact this.symm
        · have := lfsrIter_getLsbD_add hn (tapRom n) s (n - a) i (a - 1 - i) (by omega)
          rw [show n - a + (a - 1 - i) = n - i - 1 by omega, show i + (a - 1 - i) = a - 1 by omega] at this
          exact this
      rw [List.foldl_cons, List.foldl_cons, ea]
      exact ih _ fun x hx => hall x (by simp [hx])
  · have : ∀ k, (lfsrIter n (tapRom n) s k).getLsbD i = false := fun k =>
      getLsbD_of_toNat_lt (lfsrIter_lt (by omega) hn hs _ k) (by omega)
    simp [this]

/-- The characteristic polynomial of a table mask acts as zero. -/
theorem kills_tapRom {n : Nat} (h2 : 2 ≤ n) (hn : n ≤ 31) : Kills n (2 ^ n ^^^ poly n (tapList n)) (tapRom n) := by
  obtain ⟨r, hr, hlt⟩ := tapList_shape h2 hn
  have hall : ∀ x ∈ tapList n, 1 ≤ x ∧ x ≤ n := by
    rw [hr]; intro x hx
    rcases List.mem_cons.mp hx with rfl | hx
    · omega
    · have := hlt x hx; omega
  have hpl := poly_lt (n := n) (by omega) (tapList n) fun x hx => (hall x hx).1
  have h12 : 2 ^ n < 2 ^ (n + 1) := Nat.pow_lt_pow_right (by decide) (by omega)
  refine ⟨Nat.xor_lt_two_pow h12 (Nat.lt_trans hpl h12), ?_, fun s hs => ?_⟩
  · rw [Nat.testBit_xor, Nat.testBit_lt_two_pow hpl, Nat.testBit_two_pow_self]; rfl
  · rw [act_xor hn, act_poly hn _ _ hall, act_two_pow _ _ _ _ _ (by omega), lfsrIter_width h2 hn hs]
    simp

/-! ### The certificate of a period -/

/-- The certificate of a period `P`: x^P = 1, and x^(P/p) - 1 is invertible for every listed p. -/
def cert (n f P : Nat) (ps : List Nat) : Bool :=
  pow n f 2 n P == 1 && ps.all fun p => pow n f (pow n f 2 n (P / p) ^^^ 1) n P == 1

/-- What the certificate is worth: P steps come back to the state, P / p steps do not, from any nonzero state. -/
theorem of_cert {n f : Nat} {t : Bits31} (h2 : 2 ≤ n) (hn : n ≤ 31) (hk : Kills n f t) {ps : List Nat}
    (hc : cert n f (2 ^ n - 1) ps = true) {s : Bits31} (hs : s.toNat < 2 ^ n) (h0 : s ≠ 0) :
    lfsrIter n t s (2 ^ n - 1) = s ∧ ∀ p ∈ ps, lfsrIter n t s ((2 ^ n - 1) / p) ≠ s := by
  simp only [cert, Bool.and_eq_true, beq_iff_eq, List.all_eq_true] at hc
  obtain ⟨c1, c2⟩ := hc
  have h22 : 2 < 2 ^ n := by
    have : 2 ^ 2 ≤ 2 ^ n := Nat.pow_le_pow_right (by decide) h2
    omega
  have one : ∀ s : Bits31, act n t n 1 s = s := by
    intro s
    obtain ⟨m, rfl⟩ : ∃ m, n = m + 1 := ⟨n - 1, by omega⟩
    exact act_one _ t m s
  have steps : ∀ e, e < 2 ^ n → act n t n (pow n f 2 n e) s = lfsrIter n t s e := fun e he => by
    rw [(pow_spec (by omega) hn hk h22 n e he).2 s hs, iterAct_two h2]
  constructor
  · rw [← steps _ (by omega), c1, one]
  · intro p hp hpe
    have hlt : (2 ^ n - 1) / p < 2 ^ n := Nat.lt_of_le_of_lt (Nat.div_le_self _ _) (by omega)
    have hl := (pow_spec (by omega) hn hk h22 n _ hlt).1
    have hz : pow n f 2 n ((2 ^ n - 1) / p) ^^^ 1 < 2 ^ n := Nat.xor_lt_two_pow hl (by omega)
    have hz0 : act n t n (pow n f 2 n ((2 ^ n - 1) / p) ^^^ 1) s = 0 := by
      rw [act_xor hn, steps _ hlt, one, hpe]; simp
    have h3 := (pow_spec (by omega) hn hk hz n (2 ^ n - 1) (by omega)).2 s hs
    rw [c2 p hp, one] at h3
    apply h0
    rw [h3]
    have := iterAct_add n t (pow n f 2 n ((2 ^ n - 1) / p) ^^^ 1) (2 ^ n - 1 - 1) 1 s
    rw [show 2 ^ n - 1 - 1 + 1 = 2 ^ n - 1 by omega] at this
    rw [this]
    show iterAct n t _ (2 ^ n - 1 - 1) (act n t n _ s) = 0
    rw [hz0, iterAct_state_zero]

end Sys2Proof.Machine.Period
end

