-- ==== Sys2Proof/Laws/Runs.lean ====
section
/-! SUPPORT. The runs of a stream: repeating every sample scales them, and windows of equal samples bound them
(42_lfsr_engine.md R157, 44_run_length_enforcer.md R197). -/

namespace Sys2Proof.Machine

/-- Every sample `t` times (43_prbs_generator.md R175). -/
def expand (t : Nat) (l : List Bool) : List Bool := l.flatMap (List.replicate t)

theorem length_expand (t : Nat) (l : List Bool) : (expand t l).length = l.length * t := by
  induction l with
  | nil => simp [expand]
  | cons b l ih => simp only [expand, List.flatMap_cons, List.length_append] at *; simp [ih, Nat.succ_mul, Nat.add_comm]

theorem expand_getElem? {t : Nat} (ht : 1 ≤ t) (l : List Bool) (k : Nat) : (expand t l)[k]? = l[k / t]? := by
  induction l generalizing k with
  | nil => simp [expand]
  | cons b l ih =>
    simp only [expand, List.flatMap_cons] at *
    by_cases hk : k < t
    · rw [List.getElem?_append_left (by simpa using hk), Nat.div_eq_of_lt hk]; simp [hk]
    · obtain ⟨j, rfl⟩ : ∃ j, k = j + t := ⟨k - t, by omega⟩
      rw [List.getElem?_append_right (by simp), List.length_replicate, Nat.add_sub_cancel, ih,
        Nat.add_div_right _ (by omega)]
      simp

/-- A group put before a stream joins its first group or stands alone. -/
theorem groups_replicate_append (b : Bool) (m : List Bool) (t : Nat) :
    groups (List.replicate (t + 1) b ++ m) =
      match groups m with
      | [] => [(b, t + 1)]
      | (v, k) :: r => if v = b then (v, k + (t + 1)) :: r else (b, t + 1) :: (v, k) :: r := by
  induction t with
  | zero => rfl
  | succ t ih =>
    rw [List.replicate_succ, List.cons_append, groups, ih]
    cases groups m with
    | nil => simp
    | cons g r =>
      obtain ⟨v, k⟩ := g
      by_cases h : v = b
      · subst h; simp [Nat.add_assoc]
      · simp [h]

/-- Repeating every sample `t` times makes every group `t` times as long. -/
theorem groups_expand {t : Nat} (ht : 1 ≤ t) (l : List Bool) :
    groups (expand t l) = (groups l).map fun g => (g.1, g.2 * t) := by
  obtain ⟨t, rfl⟩ : ∃ u, t = u + 1 := ⟨t - 1, by omega⟩
  induction l with
  | nil => rfl
  | cons b l ih =>
    have : expand (t + 1) (b :: l) = List.replicate (t + 1) b ++ expand (t + 1) l := rfl
    rw [this, groups_replicate_append, ih, groups]
    cases groups l with
    | nil => simp
    | cons g r =>
      obtain ⟨v, k⟩ := g
      by_cases h : v = b
      · simp [h, Nat.succ_mul]
      · simp [h]

theorem runLengths_expand {t : Nat} (ht : 1 ≤ t) (l : List Bool) : runLengths (expand t l) = (runLengths l).map (· * t) := by
  simp [runLengths, groups_expand ht]

theorem le_maxOf {l : List Nat} {k : Nat} (h : k ∈ l) : k ≤ maxOf l := by
  induction l with
  | nil => simp at h
  | cons a l ih =>
    simp only [maxOf, List.foldr_cons] at *
    rcases List.mem_cons.mp h with rfl | h
    · exact Nat.le_max_left _ _
    · exact Nat.le_trans (ih h) (Nat.le_max_right _ _)

theorem maxOf_mem {l : List Nat} (h : l ≠ []) : maxOf l ∈ l := by
  induction l with
  | nil => exact absurd rfl h
  | cons a l ih =>
    simp only [maxOf, List.foldr_cons]
    by_cases hl : l = []
    · simp [hl]
    · rcases Nat.le_total a (l.foldr max 0) with h' | h'
      · rw [Nat.max_eq_right h']; exact List.mem_cons_of_mem _ (ih hl)
      · rw [Nat.max_eq_left h']; exact List.mem_cons_self

theorem minOf_le_of_mem {l : List Nat} {k : Nat} (h : k ∈ l) : minOf l ≤ k := by
  induction l with
  | nil => simp at h
  | cons a l ih =>
    simp only [minOf, List.foldr_cons] at *
    rcases List.mem_cons.mp h with rfl | h
    · exact Nat.min_le_left _ _
    · exact Nat.le_trans (Nat.min_le_right _ _) (ih h)

theorem le_minOf {l : List Nat} {k : Nat} (h : ∀ x ∈ l, k ≤ x) (hk : k ≤ 2 ^ 64 - 1) : k ≤ minOf l := by
  induction l with
  | nil => exact hk
  | cons a l ih =>
    simp only [minOf, List.foldr_cons] at *
    exact Nat.le_min.mpr ⟨h a (by simp), ih fun x hx => h x (by simp [hx])⟩

/-- No group is empty. -/
theorem runLengths_pos {l : List Bool} {k : Nat} (h : k ∈ runLengths l) : 1 ≤ k := by
  induction l generalizing k with
  | nil => simp [runLengths, groups] at h
  | cons b l ih =>
    simp only [runLengths] at *
    rw [groups] at h
    cases hg : groups l with
    | nil => rw [hg] at h; simp at h; omega
    | cons g r =>
      obtain ⟨v, m⟩ := g
      rw [hg] at h ih
      simp only at h
      split at h
      · simp only [List.map_cons, List.mem_cons] at h
        rcases h with rfl | h
        · omega
        · exact ih (by simp only [List.map_cons, List.mem_cons]; exact .inr h)
      · rw [List.map_cons, List.mem_cons] at h
        rcases h with rfl | h
        · exact Nat.le_refl 1
        · exact ih h

/-- The first group holds the first samples. -/
theorem groups_head {l : List Bool} {v : Bool} {k : Nat} {r : List (Bool × Nat)} (h : groups l = (v, k) :: r) :
    (∀ j, j < k → l[j]? = some v) ∧ l[k]? ≠ some v := by
  induction l generalizing v k r with
  | nil => simp [groups] at h
  | cons b l ih =>
    rw [groups] at h
    cases hg : groups l with
    | nil =>
      rw [hg] at h
      obtain ⟨h1, -⟩ := List.cons.inj h
      obtain ⟨rfl, rfl⟩ := Prod.mk.inj h1
      have : l = [] := by by_contra hn; exact groups_ne_nil hn hg
      subst this
      exact ⟨fun j hj => by obtain rfl : j = 0 := by omega
                            rfl, by simp⟩
    | cons g r' =>
      obtain ⟨v', k'⟩ := g
      rw [hg] at h
      simp only at h
      obtain ⟨i1, i2⟩ := ih hg
      split at h
      · rename_i hb
        obtain ⟨h1, -⟩ := List.cons.inj h
        obtain ⟨rfl, rfl⟩ := Prod.mk.inj h1
        refine ⟨fun j hj => ?_, by simpa using i2⟩
        cases j with
        | zero => simp [hb]
        | succ j => simpa using i1 j (by omega)
      · rename_i hb
        obtain ⟨h1, -⟩ := List.cons.inj h
        obtain ⟨rfl, rfl⟩ := Prod.mk.inj h1
        have hk' : 1 ≤ k' := runLengths_pos (l := l) (by simp [runLengths, hg])
        refine ⟨fun j hj => by obtain rfl : j = 0 := by omega
                               rfl, ?_⟩
        rw [List.getElem?_cons_succ, i1 0 (by omega)]
        simpa using hb

/-- The groups behind the first are kept when a sample is put before the stream. -/
theorem runLengths_cons_tail {b : Bool} {l : List Bool} {k : Nat} (h : k ∈ (runLengths l).tail) :
    k ∈ (runLengths (b :: l)).tail := by
  simp only [runLengths] at *
  rw [groups]
  cases hg : groups l with
  | nil => simp [hg] at h
  | cons g r =>
    obtain ⟨v, m⟩ := g
    rw [hg] at h
    simp only [List.map_cons, List.tail_cons] at h
    simp only
    split
    · exact h
    · simp only [List.map_cons, List.tail_cons, List.mem_cons]; exact .inr h

/-- Every group is a window of equal samples. -/
theorem exists_window {l : List Bool} {k : Nat} (h : k ∈ runLengths l) :
    ∃ i v, i + k ≤ l.length ∧ ∀ j, j < k → l[i + j]? = some v := by
  induction l generalizing k with
  | nil => simp [runLengths, groups] at h
  | cons b l ih =>
    have hp := runLengths_pos h
    -- a window bounded by its samples
    have bound : ∀ {i v}, (∀ j, j < k → (b :: l)[i + j]? = some v) → i + k ≤ (b :: l).length := fun {i v} hw => by
      have := (List.getElem?_eq_some_iff.mp (hw (k - 1) (by omega))).1
      omega
    cases hg : groups (b :: l) with
    | nil => exact absurd hg (groups_ne_nil (by simp))
    | cons g r =>
      obtain ⟨v, m⟩ := g
      simp only [runLengths, hg, List.map_cons, List.mem_cons] at h
      rcases h with rfl | h
      · have hw := (groups_head hg).1
        exact ⟨0, v, bound (v := v) (by simpa using hw), by simpa using hw⟩
      · have hl : k ∈ runLengths l := by
          rw [groups] at hg
          cases hgl : groups l with
          | nil => rw [hgl] at hg; obtain ⟨-, rfl⟩ := List.cons.inj hg; simp at h
          | cons g' r' =>
            obtain ⟨v', m'⟩ := g'
            rw [hgl] at hg
            simp only at hg
            simp only [runLengths, hgl]
            split at hg
            · obtain ⟨-, rfl⟩ := List.cons.inj hg
              simp only [List.map_cons, List.mem_cons]; exact .inr h
            · obtain ⟨-, rfl⟩ := List.cons.inj hg
              exact h
        obtain ⟨i, v', -, hw⟩ := ih hl
        have hw' : ∀ j, j < k → (b :: l)[i + 1 + j]? = some v' := fun j hj => by
          rw [show i + 1 + j = (i + j) + 1 by omega, List.getElem?_cons_succ]; exact hw j hj
        exact ⟨i + 1, v', bound hw', hw'⟩

/-- A window of equal samples lies in one group. -/
theorem window_le {l : List Bool} {i m : Nat} {v : Bool} (hm : 1 ≤ m) (h : ∀ j, j < m → l[i + j]? = some v) :
    ∃ k ∈ runLengths l, m ≤ k := by
  induction l generalizing i with
  | nil => simpa using h 0 hm
  | cons b l ih =>
    cases i with
    | zero =>
      cases hg : groups (b :: l) with
      | nil => exact absurd hg (groups_ne_nil (by simp))
      | cons g r =>
        obtain ⟨v', k⟩ := g
        refine ⟨k, by simp [runLengths, hg], ?_⟩
        obtain ⟨h1, h2⟩ := groups_head hg
        have hk : 1 ≤ k := runLengths_pos (l := b :: l) (by simp [runLengths, hg])
        by_contra hlt
        have e1 := h 0 (by omega)
        rw [h1 0 (by omega)] at e1
        have e2 := h k (by omega)
        rw [Nat.zero_add] at e2
        exact h2 (e2.trans e1.symm)
    | succ i =>
      obtain ⟨k, hk, hle⟩ := ih fun j hj => by
        have := h j hj
        rwa [show i + 1 + j = (i + j) + 1 by omega, List.getElem?_cons_succ] at this
      simp only [runLengths] at hk ⊢
      rw [groups]
      cases hg : groups l with
      | nil => simp [hg] at hk
      | cons g r =>
        obtain ⟨v', k'⟩ := g
        rw [hg] at hk
        simp only [List.map_cons, List.mem_cons] at hk
        simp only
        split
        · rcases hk with rfl | hk
          · exact ⟨k + 1, by simp, by omega⟩
          · exact ⟨k, by simp only [List.map_cons, List.mem_cons]; exact .inr hk, hle⟩
        · exact ⟨k, by simp only [List.map_cons, List.mem_cons]; exact .inr hk, hle⟩

/-- A sample unlike both its neighbours is a group of one. -/
theorem one_mem_of_isolated {l : List Bool} {i : Nat} {v : Bool} (h : l[i]? = some v) (hr : l[i + 1]? ≠ some v)
    (hl : i = 0 ∨ l[i - 1]? ≠ some v) : 1 ∈ runLengths l := by
  have head : ∀ {l : List Bool}, l[0]? = some v → l[1]? ≠ some v → ∃ r, groups l = (v, 1) :: r := fun {l} h0 h1 => by
    cases hg : groups l with
    | nil => have : l = [] := by by_contra hn; exact groups_ne_nil hn hg
             subst this; simp at h0
    | cons g r =>
      obtain ⟨v', k⟩ := g
      obtain ⟨g1, g2⟩ := groups_head hg
      have hk : 1 ≤ k := runLengths_pos (l := l) (by simp [runLengths, hg])
      have e := g1 0 (by omega)
      rw [h0] at e
      obtain rfl := Option.some.inj e
      have : k = 1 := by
        by_contra hne
        exact h1 (g1 1 (by omega))
      exact ⟨r, by rw [this]⟩
  have tail : ∀ {l : List Bool} {i}, l[i + 1]? = some v → l[i + 2]? ≠ some v → l[i]? ≠ some v → 1 ∈ (runLengths l).tail := by
    intro l
    induction l with
    | nil => intro i h; simp at h
    | cons b l ih =>
      intro i h1 h2 h3
      cases i with
      | zero =>
        obtain ⟨r, hg⟩ := head (l := l) (by simpa using h1) (by simpa using h2)
        have hb : ¬v = b := fun e => h3 (by simp [e])
        simp [runLengths, groups, hg, hb]
      | succ i => exact runLengths_cons_tail (ih (i := i) (by simpa using h1) (by simpa using h2) (by simpa using h3))
  cases i with
  | zero =>
    obtain ⟨r, hg⟩ := head h hr
    simp [runLengths, hg]
  | succ i => exact List.mem_of_mem_tail (tail h hr (hl.resolve_left (by omega)))

end Sys2Proof.Machine
end

