-- ==== Sys2Proof/Tests/Slice0.lean ====
section
/-! SUPPORT. Tests: command words written out from 30_encoding.md R90 and R92, the well-formedness checks, one-step results from
the spec's examples and from 95_test_vectors.md, and for each obligation a state and operands that meet its hypotheses. -/

namespace Sys2Proof.Tests

section OneAtATime

open Sys2Proof.Machine

set_option Elab.async false

/-! ### Decoding: words written out bit by bit (30_encoding.md R90, R92, R95) -/

theorem test_decode_nop : decode 0b00000000000000000000000000000000 = .ok .nop := by decide
theorem test_decode_generate : decode 0b00000000000000000000000000000001 = .ok .generate := by decide
theorem test_decode_abort : decode 0b00000000000000000000000000000010 = .ok .abort := by decide
theorem test_decode_select : decode 0b00000000000000000000000000000011 = .ok .select := by decide
theorem test_decode_load_state : decode 0b00000000000000000000000000000100 = .ok .loadState := by decide
theorem test_decode_step : decode 0b00000000000000000000000000000101 = .ok .step := by decide
theorem test_decode_first_reserved_opcode : decode 0b00000000000000000000000000000110 = .error .reservedOpcode := by decide
theorem test_decode_last_reserved_opcode : decode 0b00000000000000000000000000001111 = .error .reservedOpcode := by decide
theorem test_decode_lowest_reserved_bit : decode 0b00000000000000000000000000010000 = .error .reservedBits := by decide
theorem test_decode_highest_reserved_bit : decode 0b10000000000000000000000000000001 = .error .reservedBits := by decide
theorem test_table_word : decodeTableWord 32 5 = some .step ∧ decodeTableWord 32 0x11 = none := by decide

/-- 30_encoding.md R96: `wr TMAX, 3` is 0x4400000003, `rd STATUS` is 0x0300000000. -/
theorem test_transaction_words :
    (wrTxn .tmax 3).encode = 0x4400000003#39 ∧ (rdTxn .status).encode = 0x0300000000#39 := by decide

/-! ### Well-formedness: what each check refuses -/

theorem test_every_command_is_well_formed : ∀ i ∈ [Instr.nop, .generate, .abort, .select, .loadState, .step],
    i.wellFormed = true := by decide
theorem test_write_is_well_formed : (wrTxn .tmax 3).wellFormed = true := by decide
/-- A read that carries data (30_encoding.md R90). -/
theorem test_read_with_data_refused : BusTxn.wellFormed ⟨false, 3, 1⟩ = false := by decide
theorem test_immediate_too_large_refused : (HostOp.wr .tmax (2 ^ 32)).wellFormed = false := by decide
theorem test_immediate_too_small_refused : (HostOp.wr .tmax (-(2 ^ 31) - 1)).wellFormed = false := by decide
theorem test_cfg_refused : (HostOp.cfg 3 1 (2 ^ 32)).wellFormed = false := by decide
theorem test_draw_too_large_refused : (HostOp.rng [1, 2 ^ 31]).wellFormed = false := by decide
theorem test_line_refused : (HostLine.mk (some "L") (.rng [2 ^ 31])).wellFormed = false := by decide
theorem test_line_accepted : (HostLine.mk none (.wr .tmin (-1))).wellFormed = true := by decide

/-! ### States for the tests -/

/-- The state after at most `k` steps. -/
def after : Nat → State → State
  | 0, s => s
  | k + 1, s => match Machine.step s with
    | .next t => after k t
    | _ => s

theorem reachable_after (k : Nat) (s : State) (h : Reachable s) : Reachable (after k s) := by
  induction k generalizing s with
  | zero => exact h
  | succ k ih =>
    rw [after]
    cases hs : Machine.step s with
    | next t => exact ih t (.step h hs)
    | fault r => exact h
    | refused r => exact h

/-- A cycle in which the host writes `v` to word `a`. -/
def writeCycle (a : Index) (v : Word) : CycleIn := { rst := false, bus := some ⟨true, a, v⟩, sReady := false, rng := none }

/-- The reset state with TMAX, TMIN and INIT_MODE written. -/
def pair (a b m : Word) : State := { State.reset with host := { State.reset.host with tmax := a, tmin := b, initMode := m } }

/-- After SELECT of (2, 1): WIDTH = 2. -/
def selected : State := (validate (pair 2 1 1)).2

/-- From reset: write the pair, GENERATE, then `n` cycles with the consumer ready. -/
def runProgram (a b m : Word) (n : Nat) : State :=
  .start ([writeCycle 4 a, writeCycle 5 b, writeCycle 6 m, writeCycle 2 1] ++ List.replicate n (quiet true none))

/-- (2, 1) in Ones mode in SEED, after 1 sample of 3, in CHECK, and in DONE. -/
def seeding : State := after 4 (runProgram 2 1 1 5)
def running : State := after 6 (runProgram 2 1 1 5)
def checking : State := after 8 (runProgram 2 1 1 5)
def done : State := after 9 (runProgram 2 1 1 5)

/-- (3, 2), which Tmin does not divide, in CHECK and in HALTED. -/
def checkingBad : State := after 11 (runProgram 3 2 1 8)
def halted : State := after 12 (runProgram 3 2 1 8)

/-- `s` with one more cycle to come. -/
def withCycle (c : CycleIn) (s : State) : State := { s with inputs := [c] }

theorem reachable_run (a b m : Word) (n k : Nat) : Reachable (after k (runProgram a b m n)) :=
  reachable_after k _ (.start _)

theorem test_phases : seeding.status.phase = .seed ∧ running.status.phase = .run ∧ checking.status.phase = .check
    ∧ done.status.phase = .idle ∧ halted.status.phase = .halted := by decide +kernel

/-! ### One step of each command, from the spec's examples -/

/-- R112: STATUS = 0x00000002 (DONE); `wr CMD, 0`; STATUS = 0x00000002. -/
theorem test_nop_keeps_done : ∃ t, exec .nop done = .next t ∧ readReg .status t = 0x00000002 := ⟨_, rfl, by decide +kernel⟩

/-- R170: TMAX = 3, TMIN = 1, INIT_MODE = 1; `wr CMD, 1`; STATUS has BUSY and PHASE = SEED, LEN = 7. -/
theorem test_generate_starts : ∃ t, exec .generate (pair 3 1 1) = .next t ∧ readReg .status t = 0x00000011
    ∧ t.sel.len = 7 := ⟨_, rfl, by decide +kernel, by decide +kernel⟩

/-- R113: `wr CMD, 2` during a run; STATUS = 0x00000904 and SAMPLE_CNT stays. -/
theorem test_abort_in_run : ∃ t, exec .abort running = .next t ∧ readReg .status t = 0x00000904 ∧ t.sampleCnt = 1 :=
  ⟨_, rfl, by decide +kernel, by decide +kernel⟩

/-- R138: TMAX = 3, TMIN = 1, INIT_MODE = 1; `wr CMD, 3`; STATUS = 0, WIDTH = 3, TAPS = 5, PERIOD = 7, LEN = 7. -/
theorem test_select_example : ∃ t, exec .select (pair 3 1 1) = .next t ∧ readReg .status t = 0
    ∧ t.sel = { widthCalc := 3, width := 3, taps := 5, period := 7, len := 7 } := ⟨_, rfl, by decide +kernel, by decide +kernel⟩

/-- R132: a negative TMAX is below 2, not a large number; STATUS has OUT_OF_RANGE with detail 1. -/
theorem test_select_negative : ∃ t, exec .select (pair 0xFFFFFFFB 1 1) = .next t ∧ readReg .status t = 0x00001204 :=
  ⟨_, rfl, by decide +kernel⟩

/-- R158: with WIDTH = 4, STATE_WR = 0x1 loads STATE = 1, STEP_CNT = 0, STATUS = 0. -/
theorem test_load_state_example :
    ∃ t, exec .loadState { (validate (pair 4 1 1)).2 with host := { State.reset.host with stateWr := 1 } } = .next t
      ∧ t.lfsr.state = 1 ∧ readReg .status t = 0 := ⟨_, rfl, by decide +kernel, by decide +kernel⟩

/-- R158: with WIDTH = 3, STATE_WR = 0x8 has low bits 0: ZERO_STATE. -/
theorem test_load_state_zero :
    ∃ t, exec .loadState { (validate (pair 3 1 1)).2 with host := { State.reset.host with stateWr := 8 } } = .next t
      ∧ readReg .status t = 0x00000804 := ⟨_, rfl, by decide +kernel⟩

/-- R159: WIDTH = 4, TAPS = 0x9, STATE = 0x1: STATE = 3, LAST_OUT = 0, STEP_CNT = 1. -/
theorem test_step_example :
    ∃ t, exec .step { (validate (pair 4 1 1)).2 with lfsr := { LfsrRegs.reset with state := 1 } } = .next t
      ∧ t.lfsr = { state := 3, seed := 0, lastOut := false, stepCnt := 1 } := ⟨_, rfl, by decide +kernel⟩

/-- R159: NOT_CONFIGURED is checked before ZERO_STATE. -/
theorem test_step_not_configured : ∃ t, exec .step State.reset = .next t ∧ readReg .status t = 0x00000704 :=
  ⟨_, rfl, by decide +kernel⟩

/-- R155, R175: (2, 1) from all ones emits 1, 1, 0 and passes; (3, 2) fails with 0x154C (R198). -/
theorem test_two_runs : done.outVals = [true, true, false] ∧ readReg .status done = 0x00000002
    ∧ readReg .status halted = 0x0000154C := by decide +kernel

/-- 44_run_length_enforcer.md R199: the cut seeds of width 3. -/
theorem test_cut_seeds : lfsrIter 3 (tapRom 3) 7 1 = 6 ∧ lfsrIter 3 (tapRom 3) 7 2 = 5 := by decide +kernel

/-- A word put where the next cycle takes it runs as the next step. -/
theorem test_with_fetch_word : Machine.step (State.reset.withFetchWord 32 4)
    = exec .loadState { State.reset with cycle := 1 } := rfl

/-! ### Witnesses: for each obligation with hypotheses, a state and operands that meet them -/

theorem witness_DecodeOfEncodeIsTheCommand : Instr.step.wellFormed = true := by decide +kernel

/-- A reserved word and the last word of the window. -/
theorem witness_RegisterReadReturnsTheOldWord : ∀ a ∈ [(19 : Index), 63],
    let c : CycleIn := { rst := false, bus := some { we := false, addr := a, data := 0 }, sReady := true, rng := none }
    (withCycle c running).inputs = c :: [] ∧ c.rst = false ∧ c.bus = some { we := false, addr := a, data := 0 } := by
  decide +kernel

/-- Every clause: CMD, the four writable words, their neighbours 3 and 8, and the ends of the window. -/
theorem witness_RegisterWriteStoresOrIsIgnored : ∀ a ∈ [(2 : Index), 4, 5, 6, 7, 3, 8, 0, 63],
    (withCycle (writeCycle a 9) running).inputs = writeCycle a 9 :: [] ∧ (writeCycle a 9).rst = false
      ∧ (writeCycle a 9).bus = some { we := true, addr := a, data := 9 } := by decide +kernel

theorem witness_StepRunsTheWrittenCommand :
    (withCycle (writeCycle 2 5) running).inputs = writeCycle 2 5 :: [] ∧ (writeCycle 2 5).rst = false
      ∧ (writeCycle 2 5).bus = some { we := true, addr := 2, data := 5 } ∧ decode 5 = .ok .step := by decide +kernel

theorem witness_idle : State.reset.Idle := ⟨rfl, rfl⟩

theorem witness_busy : seeding.Busy ∧ running.Busy ∧ checking.Busy :=
  ⟨⟨.inl (by decide +kernel), by decide +kernel⟩, ⟨.inr (.inl (by decide +kernel)), by decide +kernel⟩, ⟨.inr (.inr (by decide +kernel)), by decide +kernel⟩⟩

theorem witness_IllegalWordInIdleIsReported :
    State.reset.Idle ∧ 6 ≤ (6 : Word).toNat ∧ 6 ≤ (0xFFFFFFFF : Word).toNat ∧ State.reset.status.fatal = false :=
  ⟨witness_idle, by decide +kernel, by decide +kernel, rfl⟩

theorem witness_BusyDropsOtherWords : running.Busy ∧ (1 : Word).toNat ≠ 0 ∧ (1 : Word).toNat ≠ 2 ∧ (6 : Word).toNat ≠ 2 :=
  ⟨witness_busy.2.1, by decide +kernel, by decide +kernel, by decide +kernel⟩

theorem witness_HaltedIgnoresEveryWord : halted.status.phase = .halted := by decide +kernel

theorem witness_AbortEndsTheRunOrClearsStatus : checking.Busy ∧ State.reset.Idle := ⟨witness_busy.2.2, witness_idle⟩

/-- Each check at its boundary: Tmax = 1; Tmin = 0; Tmin = Tmax. -/
theorem witness_OutOfRangeParametersAreReported :
    ((pair 1 1 1).Idle ∧ sint32 (pair 1 1 1).host.tmax < 2)
      ∧ ((pair 2 0 1).Idle ∧ 2 ≤ sint32 (pair 2 0 1).host.tmax ∧ sint32 (pair 2 0 1).host.tmin < 1)
      ∧ ((pair 2 2 1).Idle ∧ 2 ≤ sint32 (pair 2 2 1).host.tmax ∧ 1 ≤ sint32 (pair 2 2 1).host.tmin
        ∧ sint32 (pair 2 2 1).host.tmax ≤ sint32 (pair 2 2 1).host.tmin) :=
  ⟨⟨⟨rfl, rfl⟩, by decide +kernel⟩, ⟨⟨rfl, rfl⟩, by decide +kernel, by decide +kernel⟩, ⟨⟨rfl, rfl⟩, by decide +kernel, by decide +kernel, by decide +kernel⟩⟩

theorem witness_UnsupportedModeIsReported :
    (pair 2 1 2).Idle ∧ 2 ≤ sint32 (pair 2 1 2).host.tmax ∧ 1 ≤ sint32 (pair 2 1 2).host.tmin
      ∧ sint32 (pair 2 1 2).host.tmin < sint32 (pair 2 1 2).host.tmax ∧ (pair 2 1 2).host.initMode ≠ 0
      ∧ (pair 2 1 2).host.initMode ≠ 1 := ⟨⟨rfl, rfl⟩, by decide +kernel, by decide +kernel, by decide +kernel, by decide +kernel, by decide +kernel⟩

/-- The least width that is too wide, 32, and the least width there is, 2. -/
theorem witness_TooWideIsReported :
    ((pair 32 1 0).Idle ∧ sint32 (pair 32 1 0).host.tmax = (32 : Nat) ∧ sint32 (pair 32 1 0).host.tmin = (1 : Nat)
        ∧ 32 ≤ 32 * 1 ∧ (32 - 1) * 1 < 32 ∧ 31 < 32)
      ∧ (sint32 (pair 2 1 1).host.tmax = (2 : Nat) ∧ sint32 (pair 2 1 1).host.tmin = (1 : Nat) ∧ 2 ≤ 2 * 1
        ∧ (2 - 1) * 1 < 2) :=
  ⟨⟨⟨rfl, rfl⟩, by decide +kernel, by decide +kernel, by decide +kernel, by decide +kernel, by decide +kernel⟩, by decide +kernel⟩

/-- The least and the greatest width: (2, 1) and (31, 1). -/
theorem witness_Accepted : Accepted (pair 2 1 1) 2 1 2 ∧ Accepted (pair 31 1 0) 31 1 31 :=
  ⟨⟨by decide +kernel, by decide +kernel, by decide +kernel, by decide +kernel, .inr (by decide +kernel), by decide +kernel, by decide +kernel, by decide +kernel⟩,
    ⟨by decide +kernel, by decide +kernel, by decide +kernel, by decide +kernel, .inl (by decide +kernel), by decide +kernel, by decide +kernel, by decide +kernel⟩⟩

theorem witness_SelectChoosesTheWidth : (pair 2 1 1).Idle ∧ Accepted (pair 2 1 1) 2 1 2 := ⟨⟨rfl, rfl⟩, witness_Accepted.1⟩

theorem witness_GenerateStartsARun : (pair 31 1 0).Idle ∧ Accepted (pair 31 1 0) 31 1 31 := ⟨⟨rfl, rfl⟩, witness_Accepted.2⟩

/-- `selected` with STATE_WR = v. -/
def loading (v : Word) : State := { selected with host := { selected.host with stateWr := v } }

/-- No width; WIDTH = 2 with STATE_WR = 4, whose low bits are 0; with STATE_WR = 7. -/
theorem witness_LoadStateLoadsTheLowBits :
    (State.reset.Idle ∧ State.reset.sel.width = 0)
      ∧ ((loading 4).Idle ∧ (loading 4).sel.width ≠ 0
        ∧ (loading 4).host.stateWr.toNat % 2 ^ (loading 4).sel.width.toNat = 0)
      ∧ ((loading 7).Idle ∧ (loading 7).sel.width ≠ 0
        ∧ (loading 7).host.stateWr.toNat % 2 ^ (loading 7).sel.width.toNat ≠ 0) :=
  ⟨⟨witness_idle, rfl⟩, ⟨⟨by decide +kernel, by decide +kernel⟩, by decide +kernel, by decide +kernel⟩, ⟨⟨by decide +kernel, by decide +kernel⟩, by decide +kernel, by decide +kernel⟩⟩

theorem witness_StepStepsTheRegisterOnce :
    (State.reset.Idle ∧ State.reset.sel.width = 0)
      ∧ (selected.Idle ∧ selected.sel.width ≠ 0 ∧ selected.lfsr.state = 0)
      ∧ (done.Idle ∧ done.sel.width ≠ 0 ∧ done.lfsr.state ≠ 0) :=
  ⟨⟨witness_idle, rfl⟩, ⟨⟨by decide +kernel, by decide +kernel⟩, by decide +kernel, by decide +kernel⟩, ⟨⟨by decide +kernel, by decide +kernel⟩, by decide +kernel, by decide +kernel⟩⟩

/-- The statements over LFSR states: the ends of the range of widths, with the all-ones state. -/
theorem witness_lfsr_widths : 2 ≤ 2 ∧ 31 ≤ 31 ∧ (3 : Bits31).toNat < 2 ^ 2 ∧ (0x7FFFFFFF : Bits31).toNat < 2 ^ 31
    ∧ (3 : Bits31) ≠ 0 := by decide +kernel

/-- `seeding` with Random latched. -/
def seedingRandom : State := { seeding with latched := { seeding.latched with pMode := 0 } }

/-- Every clause: Ones; no offer; an offer whose low bits are 0 (4, width 2); an offer whose low bits are not (7). -/
theorem witness_SeedStepChoosesTheSeed :
    (seeding.status.phase = .seed ∧ seeding.latched.pMode = 1)
      ∧ (seedingRandom.status.phase = .seed ∧ seedingRandom.latched.pMode = 0 ∧ (quiet false none).rng = none)
      ∧ ((quiet false (some 4)).rng = some 4 ∧ (4 : Bits31).toNat % 2 ^ seedingRandom.sel.width.toNat = 0)
      ∧ ((quiet false (some 7)).rng = some 7 ∧ (7 : Bits31).toNat % 2 ^ seedingRandom.sel.width.toNat ≠ 0) := by decide +kernel

theorem witness_EveryNonzeroSeedCanBeDrawn :
    rngReady seedingRandom = true ∧ (quiet false (some 7)).rng = some 7 ∧ (3 : Bits31) ≠ 0
      ∧ (7 : Bits31).toNat % 2 ^ seedingRandom.sel.width.toNat = (3 : Bits31).toNat
      ∧ (coreStep (quiet false (some 7)) seedingRandom).status.phase = .run
      ∧ seeding.status.phase = .seed ∧ seeding.latched.pMode = 1 := by decide +kernel

/-- The last sample of (2, 1) is still to come in `lastRun`. -/
def lastRun : State := after 7 (runProgram 2 1 1 5)

/-- (3, 2) after the first copy of its first raw bit: the second copy is due. -/
def repeating : State := after 6 (runProgram 3 2 1 8)

/-- A consumer that waits; a first copy; a repeated copy (Tmin = 2); the final sample. -/
theorem witness_RunStepEmitsOneSample :
    (running.status.phase = .run ∧ (quiet false none).sReady = false ∧ (quiet true none).sReady = true
        ∧ 1 ≤ sint32 running.latched.pTmin ∧ running.sampleCnt.toNat < running.sel.len.toNat)
      ∧ (repeating.status.phase = .run ∧ 1 ≤ sint32 repeating.latched.pTmin
        ∧ repeating.sampleCnt.toNat % (sint32 repeating.latched.pTmin).toNat ≠ 0
        ∧ repeating.sampleCnt.toNat < repeating.sel.len.toNat)
      ∧ (lastRun.status.phase = .run ∧ 1 ≤ sint32 lastRun.latched.pTmin ∧ lastRun.sampleCnt.toNat < lastRun.sel.len.toNat
        ∧ lastRun.sampleCnt.toNat + 1 = lastRun.sel.len.toNat) := by decide +kernel

/-- A check that passes, one that fails, and one without a run to close. -/
theorem witness_CheckStepPassesOrHalts :
    (checking.status.phase = .check ∧ checking.enf.hasRun = true ∧ (checking.enf.close.rlMax.toNat : Int) = sint32 checking.latched.pTmax
        ∧ (checking.enf.close.rlMin.toNat : Int) = sint32 checking.latched.pTmin)
      ∧ (checkingBad.status.phase = .check ∧ (checkingBad.enf.close.rlMax.toNat : Int) ≠ sint32 checkingBad.latched.pTmax)
      ∧ ({ checking with enf := .reset } : State).enf.hasRun = false := by decide +kernel

theorem witness_OfferedSampleIsTheEmittedOne : running.status.phase = .run ∧ (quiet true none).sReady = true := by decide +kernel

/-- A stalled cycle, with a NOP and with an ignored write. -/
theorem witness_OfferedSampleIsStable :
    ∀ c ∈ [quiet false none, writeCycle 2 0, writeCycle 4 9],
      (∃ t, Machine.step (withCycle c running) = .next t) ∧ (withCycle c running).Busy ∧ sValid (withCycle c running) = true
        ∧ (nextInput (withCycle c running)).rst = false ∧ (nextInput (withCycle c running)).sReady = false
        ∧ ∀ v, (nextInput (withCycle c running)).bus ≠ some { we := true, addr := 2, data := v } ∨ v.toNat ≠ 2 := by
  intro c hc
  simp only [List.mem_cons, List.not_mem_nil, or_false] at hc
  have hb : running.Busy := witness_busy.2.1
  rcases hc with rfl | rfl | rfl <;>
    refine ⟨⟨_, rfl⟩, ⟨hb.1, hb.2⟩, by decide +kernel, rfl, rfl, fun v => ?_⟩
  · exact .inl (by simp [withCycle, nextInput, quiet])
  · by_cases h : v.toNat = 2
    · exact .inl fun e => by
        have : (0 : Word) = v := by simpa [withCycle, nextInput, writeCycle] using e
        rw [← this] at h
        simp at h
    · exact .inr h
  · exact .inl (by simp [withCycle, nextInput, writeCycle])

theorem witness_EnforcerUpdateTracksRuns :
    Enforcer.reset.hasRun = false ∧ running.enf.hasRun = true ∧ true = running.enf.curVal ∧ false ≠ running.enf.curVal := by
  decide +kernel

theorem witness_EnforcerHoldsTheGrouping : [true, true, false].length < 2 ^ 64 ∧ ([] : List Bool).length < 2 ^ 64 := by decide +kernel

/-- A reset cycle with a read, and one with a CMD write. -/
theorem witness_ResetCycleRestoresEveryRegister :
    let r : CycleIn := { rst := true, bus := some { we := false, addr := 3, data := 0 }, sReady := true, rng := none }
    let w : CycleIn := { rst := true, bus := some { we := true, addr := 2, data := 1 }, sReady := true, rng := none }
    (withCycle r halted).inputs = r :: [] ∧ r.rst = true ∧ r.bus = some { we := false, addr := 3, data := 0 }
      ∧ (withCycle w halted).inputs = w :: [] ∧ w.rst = true
      ∧ ∀ a v, w.bus ≠ some { we := false, addr := a, data := v } := by
  refine ⟨rfl, rfl, rfl, rfl, rfl, fun a v => ?_⟩
  simp

theorem statusInv_of_fields (f : Status)
    (h : (f.busy == (f.phase == .seed || f.phase == .run || f.phase == .check)) && (f.fatal == (f.phase == .halted))
      && (!f.fatal || (f.error && f.errCode == .internalInvariantViolation)) && (!f.done || (!f.error && f.phase == .idle))
      && (f.error || (f.errCode == .noError && f.errDetail == 0)) && (!f.busy || !f.error) && f.errCode != .typeMismatch) :
    StatusInv f := by
  obtain ⟨b, d, e, ft, p, dr, ec, ed⟩ := f
  constructor <;> cases b <;> cases d <;> cases e <;> cases ft <;> cases p <;> simp_all

theorem witness_statusInv : StatusInv running.status ∧ StatusInv checking.status ∧ StatusInv checkingBad.status
    ∧ StatusInv halted.status ∧ StatusInv seeding.status :=
  ⟨statusInv_of_fields _ (by decide +kernel), statusInv_of_fields _ (by decide +kernel), statusInv_of_fields _ (by decide +kernel),
    statusInv_of_fields _ (by decide +kernel), statusInv_of_fields _ (by decide +kernel)⟩

/-- A step in HALTED, and the step that enters it. -/
theorem witness_FatalIsLeftOnlyByReset :
    (StatusInv halted.status ∧ (∃ t, Machine.step (withCycle (writeCycle 2 2) halted) = .next t)
        ∧ (nextInput (withCycle (writeCycle 2 2) halted)).rst = false ∧ halted.status.phase = .halted)
      ∧ (∃ t, Machine.step (withCycle (quiet true none) checkingBad) = .next t ∧ checkingBad.status.fatal = false
        ∧ t.status.fatal = true) :=
  ⟨⟨witness_statusInv.2.2.2.1, ⟨_, rfl⟩, rfl, by decide +kernel⟩, ⟨_, rfl, by decide +kernel, by decide +kernel⟩⟩

theorem witness_PhaseMovesAsTabled :
    StatusInv running.status ∧ (∃ t, command 2 running = .next t ∧ t.status.phase = .idle)
      ∧ (∃ t, command 1 (pair 2 1 1) = .next t ∧ t.status.phase = .seed) :=
  ⟨witness_statusInv.1, ⟨_, rfl, by decide +kernel⟩, ⟨_, rfl, by decide +kernel⟩⟩

theorem witness_RunParametersAreImmutable :
    StatusInv running.status ∧ (∃ t, Machine.step (withCycle (writeCycle 4 9) running) = .next t)
      ∧ (nextInput (withCycle (writeCycle 4 9) running)).rst = false ∧ running.status.phase = .run
      ∧ seeding.status.phase = .seed :=
  ⟨witness_statusInv.1, ⟨_, rfl⟩, rfl, by decide +kernel, by decide +kernel⟩

theorem witness_OnlyRegisterWritesChangeHostRegisters :
    (∃ t, Machine.step (withCycle (writeCycle 7 9) halted) = .next t ∧ t.host ≠ halted.host)
      ∧ (nextInput (withCycle (writeCycle 7 9) halted)).rst = false := ⟨⟨_, rfl, by decide +kernel⟩, rfl⟩

/-- An ABORT cycle with the consumer ready. -/
def abortCycle : CycleIn := { rst := false, bus := some { we := true, addr := 2, data := 2 }, sReady := true, rng := none }

theorem witness_AbortMeetsWhatTheCoreStepLeaves :
    (StatusInv lastRun.status ∧ lastRun.status.phase = .run ∧ abortCycle.sReady = true
        ∧ lastRun.sampleCnt.toNat + 1 = lastRun.sel.len.toNat)
      ∧ ((withCycle abortCycle lastRun).inputs = abortCycle :: [] ∧ abortCycle.rst = false
        ∧ abortCycle.bus = some { we := true, addr := 2, data := 2 })
      ∧ (checking.status.phase = .check ∧ (coreStep abortCycle checking).status.done = true)
      ∧ (checkingBad.status.phase = .check ∧ (coreStep abortCycle checkingBad).status.done = false) :=
  ⟨⟨statusInv_of_fields _ (by decide +kernel), by decide +kernel, by decide +kernel, by decide +kernel⟩, by decide +kernel, by decide +kernel, by decide +kernel⟩

/-- The invariant at a run in SEED: (2, 1) in Ones mode, with the consumer ready from here on. -/
def onesRun (rest : List CycleIn) : State :=
  { generate (clearReport (pair 2 1 1)) with inputs := List.replicate 5 (quiet true none) ++ rest }

theorem witness_OnesRunEndsAfterItsSteps :
    (onesRun []).Inv ∧ (onesRun []).status.phase = .seed ∧ (onesRun []).latched.pMode = 1
      ∧ (onesRun []).inputs = List.replicate ((onesRun []).sel.len.toNat + 2) (quiet true none) ++ [] := by
  refine ⟨(generate_inv (s := pair 2 1 1) ?_ rfl).frame _ _ _ _, by decide +kernel, by decide +kernel, by decide +kernel⟩
  exact (resetBlock_inv State.reset).frame _ _ _ _

/-- WIDTH = 2, no run, and STEP_CNT at its last value. -/
def wrapping : State :=
  { (validate (clearReport (pair 2 1 1))).2 with
    host := { State.reset.host with tmax := 2, tmin := 1, initMode := 1, stateWr := 1 }
    lfsr := { state := 1, seed := 0, lastOut := false, stepCnt := 0xFFFFFFFF } }

theorem wrapping_inv : wrapping.Inv := by
  have h := (validate_inv (s := pair 2 1 1) ((resetBlock_inv State.reset).frame _ _ _ _) rfl).1
  exact .of_idle h.status (h.selection.setLfsr (by decide +kernel) rfl rfl (by decide +kernel))
    ⟨h.counts.cnt_le, h.counts.cur_le, h.counts.max_le⟩ (by decide +kernel) (by decide +kernel)

/-- Every case in which STEP_CNT becomes smaller: a STEP at 2^32 - 1, and the three commands that clear it. -/
theorem witness_OnlyDebugStepWrapsACounter :
    ∀ w ∈ [(5 : Word), 1, 3, 4],
      (withCycle (writeCycle 2 w) wrapping).Inv ∧ (nextInput (withCycle (writeCycle 2 w) wrapping)).rst = false
        ∧ ∃ t, Machine.step (withCycle (writeCycle 2 w) wrapping) = .next t
          ∧ t.lfsr.stepCnt.toNat < (withCycle (writeCycle 2 w) wrapping).lfsr.stepCnt.toNat := by
  intro w hw
  refine ⟨wrapping_inv.frame wrapping.host wrapping.reads _ wrapping.cycle, rfl, ?_⟩
  simp only [List.mem_cons, List.not_mem_nil, or_false] at hw
  rcases hw with rfl | rfl | rfl | rfl <;> exact ⟨_, rfl, by decide +kernel⟩

theorem witness_StepKeepsTheInvariant : (onesRun []).Inv ∧ ∃ t, Machine.step (onesRun []) = .next t :=
  ⟨witness_OnesRunEndsAfterItsSteps.1, ⟨_, rfl⟩⟩

/-- Reachable states in every phase, for the statements about reachable states. -/
theorem witness_reachable :
    (Reachable seeding ∧ seeding.status.busy = true) ∧ (Reachable running ∧ running.status.phase = .run)
      ∧ (Reachable checking ∧ checking.status.phase = .check) ∧ (Reachable done ∧ done.status.done = true)
      ∧ (Reachable halted ∧ halted.status.phase = .halted) :=
  ⟨⟨reachable_run .., by decide +kernel⟩, ⟨reachable_run .., by decide +kernel⟩, ⟨reachable_run .., by decide +kernel⟩, ⟨reachable_run .., by decide +kernel⟩,
    ⟨reachable_run .., by decide +kernel⟩⟩

/-- (2, 1) once more, with a consumer that stalls for two cycles. -/
def doneLate : State := after 11
  (.start ([writeCycle 4 2, writeCycle 5 1, writeCycle 6 1, writeCycle 2 1, quiet true none, quiet false none, quiet true none,
    quiet false none, quiet true none, quiet true none, quiet true none]))

theorem witness_CheckedRunsAreDeterministic :
    Reachable done ∧ Reachable doneLate ∧ done.status.done = true ∧ doneLate.status.done = true
      ∧ done.latched = doneLate.latched ∧ done.latched.pMode = 1 ∧ done.lfsr.seed = doneLate.lfsr.seed :=
  ⟨reachable_run .., reachable_after _ _ (.start _), by decide +kernel, by decide +kernel, by decide +kernel, by decide +kernel, by decide +kernel⟩

end OneAtATime

end Sys2Proof.Tests
end

/-! ## The invariant along every step (10_state.md R34, R56) -/

namespace Sys2Proof.Machine

/-! ### One step keeps the invariant -/

theorem takeInput_inv {s : State} (h : s.Inv) : (takeInput s).Inv :=
  h.frame s.host s.reads s.inputs.tail (s.cycle + 1)

theorem recordRead_inv {s : State} (h : s.Inv) (a : Index) (v : Word) : (recordRead a v s).Inv :=
  h.frame s.host (recordRead a v s).reads s.inputs s.cycle

theorem writeWord_inv {s : State} (h : s.Inv) (a : Index) (v : Word) : (writeWord a v s).Inv := by
  rw [writeWord_frame]
  exact h.frame (writeWord a v s).host s.reads s.inputs s.cycle

/-- A host access keeps the invariant of the state the core step leaves, whatever state a read looks at. -/
theorem hostAccess_inv {s t before : State} {bus : Option BusTxn} (h : s.Inv)
    (ht : hostAccess bus before s = .next t) : t.Inv := by
  rcases hostAccess_cases bus before s with ⟨-, e⟩ | ⟨a, v, -, e⟩ | ⟨a, v, -, -, e⟩ | ⟨a, v, -, -, e⟩ <;> rw [e] at ht
  · obtain rfl := Host.Outcome.next.inj ht
    exact h
  · obtain rfl := Host.Outcome.next.inj ht
    exact recordRead_inv h _ _
  · exact command_inv h ht
  · obtain rfl := Host.Outcome.next.inj ht
    exact writeWord_inv h _ _

theorem resetCycle_inv (bus : Option BusTxn) (s : State) : (resetCycle bus s).Inv := by
  unfold resetCycle
  split
  · exact resetBlock_inv s
  · split
    · exact resetBlock_inv s
    · exact recordRead_inv (resetBlock_inv s) _ _

theorem step_inv {s t : State} (h : s.Inv) (ht : step s = .next t) : t.Inv := by
  rcases step_cases s with ⟨-, e⟩ | ⟨-, e⟩ <;> rw [e] at ht
  · obtain rfl := Host.Outcome.next.inj ht
    exact resetCycle_inv _ _
  · exact hostAccess_inv (coreStep_inv (takeInput_inv h) _) ht

/-- Settles O47: the inputs are taken, then a reset cycle, or the core step and the host access, each of which keeps the
invariant. -/
theorem stepKeepsTheInvariant : Obligations.StepKeepsTheInvariant := fun _ _ => step_inv

/-! ### The invariant of every reachable state -/

theorem start_inv (ins : List CycleIn) : (State.start ins).Inv :=
  (resetBlock_inv State.reset).frame State.reset.host State.reset.reads ins State.reset.cycle

/-- Settles O46: reset is an IDLE state without report, with nothing selected and nothing counted. -/
theorem invariantHoldsAtReset : Obligations.InvariantHoldsAtReset := start_inv

theorem Reachable.inv {s : State} (h : Reachable s) : s.Inv := by
  induction h with
  | start ins => exact start_inv ins
  | step _ ht ih => exact step_inv ih ht

/-- Settles O48: the codes of NO_ERROR and of INTERNAL_INVARIANT_VIOLATION are read off the invariant of STATUS. -/
theorem reachableStatusIsConsistent : Obligations.ReachableStatusIsConsistent := by
  intro s hs
  have h := hs.inv.status
  refine ⟨h.busy_iff, h.fatal_iff, fun hf => ?_, h.done_clean, fun he => ?_⟩
  · obtain ⟨herr, hcode⟩ := h.fatal_error hf
    exact ⟨herr, by rw [hcode]; rfl⟩
  · obtain ⟨hcode, hdetail⟩ := h.no_error_no_code he
    exact ⟨by rw [hcode]; rfl, hdetail⟩

/-! ### The registers of a reachable state -/

/-- The ceiling of `j / t` by its two inequalities. -/
theorem ceilDiv_bounds {j t : Nat} (ht : 1 ≤ t) : j ≤ ceilDiv j t * t ∧ ceilDiv j t * t < j + t := by
  have hdiv := Nat.div_add_mod' (j + t - 1) t
  have hmod := Nat.mod_lt (j + t - 1) ht
  unfold ceilDiv
  omega

/-- LEN = PERIOD * Tmin (10_state.md R56). -/
theorem Selected.len_eq_period_mul {s : State} (h : Selected s) : (s.sel.len.toNat : Int) = s.sel.period.toNat * s.tmin := by
  have hpos : 1 ≤ 2 ^ s.sel.width.toNat := Nat.one_le_two_pow
  rw [h.len_eq, h.period_eq]
  push_cast [hpos]
  rfl

/-- A run's STATE is never 0: its seed is not, and no step leads to 0 (42_lfsr_engine.md R154). -/
theorem Running.state_ne_zero {s : State} (h : Running s) (hsel : Selected s) : s.lfsr.state ≠ 0 := by
  rw [h.state_eq, hsel.taps_eq]
  exact lfsrIter_ne_zero hsel.width_ge (width_le s) h.seed_ok.seed_lt h.seed_ok.seed_ne _

/-- A run's STEP_CNT is the ceiling of SAMPLE_CNT / Tmin, by its two inequalities (10_state.md R56). -/
theorem Running.stepCnt_bounds {s : State} (h : Running s) {t : Nat} (ht : s.tmin = t) (ht1 : 1 ≤ t) :
    s.sampleCnt.toNat ≤ s.lfsr.stepCnt.toNat * t ∧ s.lfsr.stepCnt.toNat * t < s.sampleCnt.toNat + t := by
  have hsteps := h.steps_eq
  rw [ht, Int.toNat_natCast] at hsteps
  rw [hsteps]
  exact ceilDiv_bounds ht1

/-- With all LEN = PERIOD * Tmin samples emitted, PERIOD steps were taken. -/
theorem Running.stepCnt_of_full {s : State} (h : Running s) (hsel : Selected s) (hfull : s.sampleCnt = s.sel.len) :
    s.lfsr.stepCnt.toNat = s.sel.period.toNat := by
  obtain ⟨t, ht, ht1, -, hlen, -⟩ := hsel.nat
  rw [h.steps_eq, hfull, hlen, ht, Int.toNat_natCast, hsel.period_eq,
    (ceilDiv_succ_of_mod_eq ht1 (Nat.mul_mod_left _ t)).1, Nat.mul_div_cancel _ ht1]

/-- Settles O49: the first bullets are the selection's invariant; in a run Tmin is a natural t ≥ 1, and STATE and STEP_CNT
follow from the raw sequence and the ceiling. -/
theorem reachableRegistersAgree : Obligations.ReachableRegistersAgree := by
  intro s hs
  have h := hs.inv
  refine ⟨⟨h.selection.state_lt, fun hw => (h.selection.unselected hw).1⟩, fun hw => ?_,
    fun hw => (h.selection.unselected hw).2, fun hp => ?_, fun hp => ?_⟩
  · have hsel := h.selection.selected hw
    exact ⟨hsel.taps_eq, hsel.period_eq, hsel.len_eq_period_mul⟩
  · have hrun := h.running hp
    have hsel := h.selection.selected hrun.width_ne
    obtain ⟨t, ht, ht1, -⟩ := hsel.nat
    exact ⟨hrun.state_ne_zero hsel, hrun.cnt_le, t, ht, hrun.stepCnt_bounds ht ht1⟩
  · have hrun := h.running (.inr hp)
    have hfull := h.check_all hp
    exact ⟨hfull, hrun.stepCnt_of_full (h.selection.selected hrun.width_ne) hfull⟩

end Sys2Proof.Machine

/-! ## The register map, the STATUS word and the reads (10_state.md R21 to R57, 20_memory.md R61) -/

namespace Sys2Proof.Machine

/-! ### Bits of a concatenation -/

/-- A bit above the low part of a concatenation is a bit of the high part. -/
theorem getLsbD_append_of_le {n m i : Nat} (hi : BitVec n) (lo : BitVec m) (h : m ≤ i) :
    (hi ++ lo).getLsbD i = hi.getLsbD (i - m) := by
  rw [BitVec.getLsbD_append, if_neg (Nat.not_lt.mpr h)]

theorem getLsbD_append_ofBool_zero {n : Nat} (hi : BitVec n) (b : Bool) : (hi ++ BitVec.ofBool b).getLsbD 0 = b := by
  rw [BitVec.getLsbD_append, if_pos Nat.one_pos, BitVec.getLsbD_ofBool, decide_eq_true rfl, Bool.true_and]

/-! ### The register map -/

theorem toNat_index_tapRom (w : BitVec 5) : (RegName.tapRom w).index.toNat = 32 + w.toNat :=
  (BitVec.toNat_append (1 : BitVec 1) w).trans (Nat.shiftLeft_add_eq_or_of_lt w.isLt 1).symm

/-- Bit 5 of an index tells the tap ROM, and the five bits below it are the width. -/
theorem regAt_index_tapRom (w : BitVec 5) : regAt (RegName.tapRom w).index = some (.tapRom w) := by
  have hbit : (RegName.tapRom w).index.getLsbD 5 = true := getLsbD_append_of_le (1 : BitVec 1) w (le_refl 5)
  have hlow : (RegName.tapRom w).index.extractLsb' 0 5 = w := BitVec.extractLsb'_append_eq_right
  rw [regAt, if_pos hbit, hlow]

@[simp] theorem regAt_index (r : RegName) : regAt r.index = some r := by
  cases r with
  | tapRom w => exact regAt_index_tapRom w
  | _ => rfl

/-- A register stands at its own index alone. -/
theorem index_of_regAt {a : Index} {r : RegName} (h : regAt a = some r) : r.index = a := by
  have hall : ∀ a : Index, ∀ r ∈ regAt a, r.index = a := by decide
  exact hall a r h

/-- Settles O6: `regAt` is left inverse to `RegName.index`, and the rest is the table. -/
theorem registerMapIsExact : Obligations.RegisterMapIsExact :=
  ⟨regAt_index, by decide, by decide, by decide, toNat_index_tapRom⟩

/-! ### The STATUS word -/

/-- Where nine parts of the widths of STATUS stand in their concatenation: each is reached by skipping the parts below it. -/
theorem status_layout (reserved : BitVec 18) (detail : BitVec 2) (code : BitVec 4) (dropped : Bool) (phase : BitVec 3)
    (fatal error done busy : Bool) :
    let w := reserved ++ detail ++ code ++ BitVec.ofBool dropped ++ phase ++ BitVec.ofBool fatal ++ BitVec.ofBool error
      ++ BitVec.ofBool done ++ BitVec.ofBool busy
    w.getLsbD 0 = busy ∧ w.getLsbD 1 = done ∧ w.getLsbD 2 = error ∧ w.getLsbD 3 = fatal ∧ w.extractLsb' 4 3 = phase
      ∧ w.getLsbD 7 = dropped ∧ w.extractLsb' 8 4 = code ∧ w.extractLsb' 12 2 = detail
      ∧ w.extractLsb' 14 18 = reserved := by
  simp (disch := decide) only [getLsbD_append_of_le, getLsbD_append_ofBool_zero, BitVec.extractLsb'_append_eq_of_le,
    BitVec.extractLsb'_append_eq_of_add_le, BitVec.extractLsb'_eq_self, Nat.reduceSub, and_self]

/-- Settles O7: the codes are the tables of R31 and R32, and the word is laid out as R30 has it. -/
theorem statusWordHoldsItsFields : Obligations.StatusWordHoldsItsFields :=
  ⟨by decide, by decide, fun f =>
    status_layout 0 f.errDetail f.errCode.code f.dropped f.phase.code f.fatal f.error f.done f.busy⟩

/-! ### What a read returns -/

@[simp] theorem readWord_index (r : RegName) (s : State) : readWord r.index s = readReg r s := by
  rw [readWord, regAt_index]

/-- A reserved word reads 0 (10_state.md R52). -/
theorem readWord_reserved {a : Index} (h : regAt a = none) (s : State) : readWord a s = 0 := by
  rw [readWord, h]

theorem toNat_readReg_rlCur (s : State) :
    (readReg .rlCur s).toNat = s.enf.curVal.toNat + 2 * s.enf.hasRun.toNat := by
  unfold readReg
  cases s.enf.curVal <;> cases s.enf.hasRun <;> rfl

theorem toNat_readReg_lastOut (s : State) : (readReg .lastOut s).toNat = s.lfsr.lastOut.toNat :=
  (BitVec.toNat_setWidth_of_le (by decide)).trans (BitVec.toNat_ofBool _)

/-- Settles O58: `regAt` finds each register at its index, and a register narrower than a word is zero-extended. -/
theorem everyWordReadsItsRegister : Obligations.EveryWordReadsItsRegister := by
  intro s
  have narrow {n : Nat} (hn : n ≤ 32) (v : BitVec n) : (v.setWidth 32).toNat = v.toNat := BitVec.toNat_setWidth_of_le hn
  exact ⟨fun r => readWord_index r s, readWord_reserved (by decide) s, readWord_reserved (by decide) s, rfl, rfl, rfl, rfl,
    rfl, rfl, rfl, rfl, rfl, rfl, rfl, rfl, narrow (by decide) _, narrow (by decide) _, narrow (by decide) _,
    narrow (by decide) _, narrow (by decide) _, toNat_readReg_lastOut s, rfl, toNat_readReg_rlCur s⟩

/-- Every index from 32 on is that of a tap mask. -/
theorem exists_tapRom_index {a : Index} (h : 32 ≤ a.toNat) : ∃ w : BitVec 5, a = (RegName.tapRom w).index := by
  refine ⟨BitVec.ofNat 5 (a.toNat - 32), BitVec.eq_of_toNat_eq ?_⟩
  have := a.isLt
  rw [toNat_index_tapRom, BitVec.toNat_ofNat]
  omega

theorem toNat_readReg_tapRom (w : BitVec 5) (s : State) : (readReg (.tapRom w) s).toNat = (tapRom w.toNat).toNat :=
  BitVec.toNat_setWidth_of_le (by decide)

/-- The words below the tap ROM after reset (10_state.md R57). -/
theorem readWord_reset_of_lt : ∀ a : Index, a.toNat < 32 → (readWord a State.reset).toNat =
    if a.toNat = 0 then 0x50524253 else if a.toNat = 1 then 0x00000001
    else if a.toNat = 26 ∨ a.toNat = 27 then 0xFFFFFFFF else 0 := by
  decide

/-- Settles O38: the 32 words below the tap ROM are constants of the reset state, the tap ROM is one of every state. -/
theorem resetValuesReadAsTabled : Obligations.ResetValuesReadAsTabled := by
  intro a
  by_cases h : 32 ≤ a.toNat
  · obtain ⟨w, rfl⟩ := exists_tapRom_index h
    rw [readWord_index, toNat_readReg_tapRom, toNat_index_tapRom, if_neg (by omega), if_neg (by omega), if_neg (by omega),
      if_pos (by omega), Nat.add_sub_cancel_left]
  · rw [readWord_reset_of_lt a (by omega), if_neg h]

end Sys2Proof.Machine

/-! ## The ports and the frames of a step (10_state.md R22, R36, R53, R54) -/

namespace Sys2Proof.Machine

/-! ### The core step by phase -/

theorem coreStep_of_seed {s : State} (h : s.status.phase = .seed) (c : CycleIn) : coreStep c s = seedStep c.rng s := by
  rw [coreStep, h]

theorem coreStep_of_run {s : State} (h : s.status.phase = .run) {c : CycleIn} (hc : c.sReady = true) :
    coreStep c s = runStep s := by
  rw [coreStep, h]
  exact if_pos hc

/-! ### The sample port -/

/-- LAST_OUT after the LFSR half of a RUN step is what `s_data` shows before it. -/
theorem advanceLfsr_lastOut (s : State) : (advanceLfsr s).lastOut = sData s := by
  unfold advanceLfsr sData
  split <;> rfl

theorem sValid_iff {s : State} : sValid s = true ↔ s.status.phase = .run := by
  simp [sValid]

/-- While a sample is offered, `s_last` tells the final one. -/
theorem sLast_of_sValid {s : State} (h : sValid s = true) : sLast s = finalSample s := by
  rw [sLast, h, Bool.true_and]

/-- Settles O33: an accepting consumer makes the RUN step happen, and that step emits LAST_OUT. -/
theorem offeredSampleIsTheEmittedOne : Obligations.OfferedSampleIsTheEmittedOne := by
  intro s c hrun hready
  have hvalid := sValid_iff.mpr hrun
  refine ⟨?_, hvalid⟩
  rw [coreStep_of_run hrun hready, runStep_out, advanceLfsr_lastOut, sLast_of_sValid hvalid]

/-! ### The SEED step -/

theorem rngReady_iff {s : State} : rngReady s = true ↔ s.status.phase = .seed ∧ s.latched.pMode = modeRandom := by
  simp [rngReady]

theorem seedStep_of_ones {s : State} (h : s.latched.pMode = modeOnes) (rng : Option Bits31) :
    seedStep rng s = setSeed (lowMask s.sel.width.toNat) s := by
  unfold seedStep
  rw [if_pos h]

theorem seedStep_none_of_random {s : State} (h : s.latched.pMode = modeRandom) : seedStep none s = s := by
  have hno : s.latched.pMode ≠ modeOnes := by rw [h]; decide
  unfold seedStep
  rw [if_neg hno, if_pos h]

/-- An offer is discarded exactly when its low WIDTH bits are all 0. -/
theorem seedStep_some_of_random {s : State} (h : s.latched.pMode = modeRandom) (d : Bits31) :
    seedStep (some d) s =
      if lowBits s.sel.width.toNat d = 0 then s else setSeed (lowBits s.sel.width.toNat d) s := by
  have hno : s.latched.pMode ≠ modeOnes := by rw [h]; decide
  unfold seedStep
  rw [if_neg hno, if_pos h]

/-- A SEED step that waits for its offer leaves SEED only by a nonzero draw. -/
theorem exists_draw_of_seedStep_run {s : State} (hm : s.latched.pMode = modeRandom) (hp : s.status.phase = .seed)
    {rng : Option Bits31} (h : (seedStep rng s).status.phase = .run) :
    ∃ d, lowBits s.sel.width.toNat d ≠ 0 ∧ seedStep rng s = setSeed (lowBits s.sel.width.toNat d) s := by
  cases rng with
  | none => simp [seedStep_none_of_random hm, hp] at h
  | some d =>
    rw [seedStep_some_of_random hm] at h ⊢
    by_cases hd : lowBits s.sel.width.toNat d = 0
    · simp [hd, hp] at h
    · exact ⟨d, hd, if_neg hd⟩

/-- Settles O35: a Random run takes the low WIDTH bits of an offer, so a nonzero value is taken from each offer that ends in
it. -/
theorem everyNonzeroSeedCanBeDrawn : Obligations.EveryNonzeroSeedCanBeDrawn := by
  intro s
  refine ⟨rngReady_iff, fun hr c v d hc hv hd => ?_, fun hr c hrun => ?_, fun hp hm c => ?_⟩
  · obtain ⟨hp, hm⟩ := rngReady_iff.mp hr
    have hlow : lowBits s.sel.width.toNat d = v := BitVec.eq_of_toNat_eq ((toNat_lowBits (width_le s) d).trans hd)
    rw [coreStep_of_seed hp, hc, seedStep_some_of_random hm, hlow, if_neg hv]
    exact ⟨rfl, rfl⟩
  · obtain ⟨hp, hm⟩ := rngReady_iff.mp hr
    rw [coreStep_of_seed hp] at hrun ⊢
    obtain ⟨d, hd, e⟩ := exists_draw_of_seedStep_run hm hp hrun
    rw [e]
    exact ⟨hd, (toNat_lowBits (width_le s) d).trans_lt (Nat.mod_lt _ (Nat.two_pow_pos _))⟩
  · rw [coreStep_of_seed hp, seedStep_of_ones hm]
    exact toNat_lowMask (width_le s)

/-! ### What the core step leaves unchanged -/

theorem seedStep_cases (rng : Option Bits31) (s : State) :
    seedStep rng s = s ∨ ∃ v, seedStep rng s = setSeed v s := by
  unfold seedStep
  split_ifs
  · exact .inr ⟨_, rfl⟩
  · split
    · exact .inl rfl
    · split_ifs
      · exact .inl rfl
      · exact .inr ⟨_, rfl⟩
  · exact .inl rfl

/-- What the core step of a cycle can be: none, a seed chosen in SEED, a sample emitted in RUN, the check in CHECK. -/
theorem coreStep_cases (c : CycleIn) (s : State) :
    coreStep c s = s
      ∨ (s.status.phase = .seed ∧ ∃ v, coreStep c s = setSeed v s)
      ∨ (s.status.phase = .run ∧ c.sReady = true ∧ coreStep c s = runStep s)
      ∨ (s.status.phase = .check ∧ coreStep c s = checkStep s) := by
  unfold coreStep
  cases hp : s.status.phase with
  | idle => exact .inl rfl
  | seed => exact (seedStep_cases c.rng s).imp id fun h => .inl ⟨rfl, h⟩
  | run =>
    by_cases hc : c.sReady = true
    · exact .inr (.inr (.inl ⟨rfl, hc, if_pos hc⟩))
    · exact .inl (if_neg hc)
  | check => exact .inr (.inr (.inr ⟨rfl, rfl⟩))
  | halted => exact .inl rfl

/-- No core step writes a host register, a latched parameter or the selection. -/
theorem coreStep_frame (c : CycleIn) (s : State) :
    (coreStep c s).host = s.host ∧ (coreStep c s).latched = s.latched ∧ (coreStep c s).sel = s.sel := by
  rcases coreStep_cases c s with e | ⟨-, v, e⟩ | ⟨-, -, e⟩ | ⟨-, e⟩ <;> rw [e] <;> exact ⟨rfl, rfl, rfl⟩

/-- In SEED and RUN the core step writes no field of STATUS but PHASE, and does not halt. -/
theorem coreStep_status_of_seed_or_run {s : State} (h : s.status.phase = .seed ∨ s.status.phase = .run) (c : CycleIn) :
    ∃ p, p ≠ .halted ∧ (coreStep c s).status = { s.status with phase := p } := by
  have hp : s.status.phase ≠ .halted := by rcases h with h | h <;> simp [h]
  rcases coreStep_cases c s with e | ⟨-, v, e⟩ | ⟨-, -, e⟩ | ⟨hc, -⟩
  · exact ⟨_, hp, by rw [e]⟩
  · exact ⟨.run, by decide, by rw [e, setSeed_status]⟩
  · rw [e, runStep_status]
    split
    · exact ⟨.check, by decide, rfl⟩
    · exact ⟨_, hp, rfl⟩
  · simp [hc] at h

/-! ### What a host access leaves unchanged -/

theorem writeWord_latched (a : Index) (v : Word) (s : State) : (writeWord a v s).latched = s.latched := by
  rw [writeWord_frame]

theorem writeWord_sel (a : Index) (v : Word) (s : State) : (writeWord a v s).sel = s.sel := by
  rw [writeWord_frame]

/-- While BUSY a command word writes STATUS alone. -/
theorem effectInBusy_frame (w : Word) (s : State) :
    (effectInBusy w s).host = s.host ∧ (effectInBusy w s).latched = s.latched ∧ (effectInBusy w s).sel = s.sel := by
  unfold effectInBusy
  split <;> exact ⟨rfl, rfl, rfl⟩

/-- While BUSY no command word changes a latched parameter or the selection (40_command_dispatch.md R113, R114). -/
theorem command_frame_of_busy {s t : State} {w : Word} (hp : s.status.phase ≠ .halted) (hb : s.status.busy = true)
    (h : command w s = .next t) : t.latched = s.latched ∧ t.sel = s.sel := by
  rcases command_cases w s with ⟨hh, -⟩ | ⟨-, -, e⟩ | ⟨-, hi, -⟩
  · exact absurd hh hp
  · obtain rfl := Host.Outcome.next.inj (e.symm.trans h)
    exact (effectInBusy_frame w s).2
  · simp [hb] at hi

/-- While BUSY no host access changes a latched parameter or the selection. -/
theorem hostAccess_frame_of_busy {bus : Option BusTxn} {before s t : State} (hp : s.status.phase ≠ .halted)
    (hb : s.status.busy = true) (h : hostAccess bus before s = .next t) : t.latched = s.latched ∧ t.sel = s.sel := by
  rcases hostAccess_cases bus before s with ⟨-, e⟩ | ⟨a, v, -, e⟩ | ⟨a, v, -, -, e⟩ | ⟨a, v, -, -, e⟩ <;> rw [e] at h
  · obtain rfl := Host.Outcome.next.inj h
    exact ⟨rfl, rfl⟩
  · obtain rfl := Host.Outcome.next.inj h
    exact ⟨rfl, rfl⟩
  · exact command_frame_of_busy hp hb h
  · obtain rfl := Host.Outcome.next.inj h
    exact ⟨writeWord_latched a v s, writeWord_sel a v s⟩

/-- A step without reset is the core step and then the host access. -/
theorem hostAccess_of_step {s t : State} (h : step s = .next t) (hr : (nextInput s).rst = false) :
    hostAccess (nextInput s).bus (takeInput s) (coreStep (nextInput s) (takeInput s)) = .next t := by
  rcases step_cases s with ⟨h1, -⟩ | ⟨-, e⟩
  · simp [hr] at h1
  · exact e.symm.trans h

/-- Settles O42: the core step writes neither, and what it leaves is still BUSY, so the host access writes neither. -/
theorem runParametersAreImmutable : Obligations.RunParametersAreImmutable := by
  intro s t hs hstep hr hp
  obtain ⟨-, hlatched, hsel⟩ := coreStep_frame (nextInput s) (takeInput s)
  obtain ⟨p, hph, hstatus⟩ := coreStep_status_of_seed_or_run (s := takeInput s) hp (nextInput s)
  have hbusy : s.status.busy = true := hs.busy_iff.mpr (hp.imp id .inl)
  obtain ⟨hl, hse⟩ := hostAccess_frame_of_busy (by rw [hstatus]; exact hph) (by rw [hstatus]; exact hbusy)
    (hostAccess_of_step hstep hr)
  exact ⟨hl.trans hlatched, hse.trans hsel⟩

/-! ### Who writes a host register -/

theorem writeWord_host_cases (a : Index) (v : Word) (s : State) :
    (writeWord a v s).host = s.host ∨ 4 ≤ a.toNat ∧ a.toNat ≤ 7 := by
  unfold writeWord
  split
  case h_5 => exact .inl rfl
  all_goals
    rename_i h
    exact .inr (index_of_regAt h ▸ by decide)

theorem validate_host (s : State) : (validate s).2.host = s.host := by
  rcases validate_cases s with ⟨code, detail, -, e⟩ | ⟨-, e⟩
  · rw [e]
    rfl
  · rw [e]
    rcases selectWidth_cases (sint32 s.host.tmax).toNat (sint32 s.host.tmin).toNat (clearDerived (latchParams s)) with
      ⟨-, e'⟩ | ⟨-, -, e'⟩ <;> rw [e'] <;> rfl

theorem generate_host (s : State) : (generate s).host = s.host := by
  unfold generate
  split <;> exact validate_host s

theorem loadState_host (s : State) : (loadState s).host = s.host := by
  unfold loadState
  split_ifs <;> rfl

theorem stepCmd_host (s : State) : (stepCmd s).host = s.host := by
  unfold stepCmd
  split_ifs <;> rfl

theorem effectInIdle_host (w : Word) (s : State) : (effectInIdle w s).host = s.host := by
  unfold effectInIdle
  split
  · rfl
  · exact generate_host _
  · rfl
  · exact validate_host _
  · exact loadState_host _
  · exact stepCmd_host _
  · rfl

/-- No command word, legal or not, writes a host register. -/
theorem command_host {s t : State} {w : Word} (h : command w s = .next t) : t.host = s.host := by
  rcases command_cases w s with ⟨-, e⟩ | ⟨-, -, e⟩ | ⟨-, -, e⟩ <;> obtain rfl := Host.Outcome.next.inj (e.symm.trans h)
  · rfl
  · exact (effectInBusy_frame w s).1
  · exact effectInIdle_host w s

/-- Settles O43: neither the core step nor a command writes one, and a register write does at the words 4 to 7 alone. -/
theorem onlyRegisterWritesChangeHostRegisters : Obligations.OnlyRegisterWritesChangeHostRegisters := by
  intro s t hstep hr
  obtain ⟨hcore, -, -⟩ := coreStep_frame (nextInput s) (takeInput s)
  have h := hostAccess_of_step hstep hr
  rcases hostAccess_cases (nextInput s).bus (takeInput s) (coreStep (nextInput s) (takeInput s)) with
    ⟨-, e⟩ | ⟨a, v, -, e⟩ | ⟨a, v, -, -, e⟩ | ⟨a, v, hbus, -, e⟩ <;> rw [e] at h
  · obtain rfl := Host.Outcome.next.inj h
    exact .inl hcore
  · obtain rfl := Host.Outcome.next.inj h
    exact .inl hcore
  · exact .inl ((command_host h).trans hcore)
  · obtain rfl := Host.Outcome.next.inj h
    exact (writeWord_host_cases a v _).imp (·.trans hcore) fun ha => ⟨a, v, hbus, ha⟩

end Sys2Proof.Machine

/-! ## Register accesses and the two words of a 64-bit quantity (20_memory.md R61 to R64, R71) -/

namespace Sys2Proof.Machine

/-! ### 64-bit quantities -/

/-- Q_HI and Q_LO are the quotient and the remainder of the quantity by 2^32. -/
theorem toNat_hiWord_loWord (q : Count) : (hiWord q).toNat * 2 ^ 32 + (loWord q).toNat = q.toNat := by
  have hq := q.isLt
  have hhi : (hiWord q).toNat = q.toNat / 2 ^ 32 := by
    rw [hiWord, BitVec.extractLsb'_toNat, Nat.shiftRight_eq_div_pow]
    omega
  have hlo : (loWord q).toNat = q.toNat % 2 ^ 32 := by
    rw [loWord, BitVec.extractLsb'_toNat, Nat.shiftRight_zero]
  rw [hhi, hlo, Nat.div_add_mod']

/-- Settles O8: each of the five registers reads as the two words of its quantity, and the indices are the table of R21. -/
theorem longQuantitiesReadAsTwoWords : Obligations.LongQuantitiesReadAsTwoWords := fun s =>
  ⟨toNat_hiWord_loWord s.sel.len, toNat_hiWord_loWord s.sampleCnt, toNat_hiWord_loWord s.enf.rlMax,
    toNat_hiWord_loWord s.enf.rlMin, toNat_hiWord_loWord s.enf.rlCurLen, by decide⟩

/-! ### A cycle with listed inputs -/

/-- A cycle without reset whose inputs are listed is the core step and then the host access, which looks at the state before
the cycle in a read. -/
theorem step_of_inputs_cons {s : State} {c : CycleIn} {cs : List CycleIn} (hin : s.inputs = c :: cs) (hr : c.rst = false) :
    step s = hostAccess c.bus (takeInput s) (coreStep c { s with inputs := cs, cycle := s.cycle + 1 }) := by
  have hnext : nextInput s = c := by rw [nextInput, hin]
  have htake : takeInput s = { s with inputs := cs, cycle := s.cycle + 1 } := by rw [takeInput, hin, List.tail_cons]
  rcases step_cases s with ⟨hrst, -⟩ | ⟨-, e⟩
  · rw [hnext, hr] at hrst
    contradiction
  · rw [e, hnext, htake]

/-- No register shows which inputs come next. -/
@[simp] theorem readWord_takeInput (a : Index) (s : State) : readWord a (takeInput s) = readWord a s := rfl

/-- Settles O11: the host access is a read, and it looks at the state before the core step. -/
theorem registerReadReturnsTheOldWord : Obligations.RegisterReadReturnsTheOldWord := by
  intro s c cs a v hin hr hbus u
  have hstep : step s = .next (recordRead a (readWord a (takeInput s)) u) := by
    rw [step_of_inputs_cons hin hr, hbus]
    rfl
  rw [hstep, readWord_takeInput]
  rfl

/-! ### A write by the word it goes to -/

theorem busWrite_tmax (v : Word) (s : State) :
    busWrite RegName.tmax.index v s = .next { s with host := { s.host with tmax := v } } := rfl

theorem busWrite_tmin (v : Word) (s : State) :
    busWrite RegName.tmin.index v s = .next { s with host := { s.host with tmin := v } } := rfl

theorem busWrite_initMode (v : Word) (s : State) :
    busWrite RegName.initMode.index v s = .next { s with host := { s.host with initMode := v } } := rfl

theorem busWrite_stateWr (v : Word) (s : State) :
    busWrite RegName.stateWr.index v s = .next { s with host := { s.host with stateWr := v } } := rfl

theorem busWrite_cmd (v : Word) (s : State) : busWrite RegName.cmd.index v s = command v s := rfl

/-- A write outside the words 4 to 7 stores nothing. -/
theorem writeWord_eq_self {a : Index} (h : ¬(4 ≤ a.toNat ∧ a.toNat ≤ 7)) (v : Word) (s : State) : writeWord a v s = s := by
  rw [writeWord_frame, (writeWord_host_cases a v s).resolve_right h]

/-- A write to neither CMD nor a word from 4 to 7 has no effect. -/
theorem busWrite_ignored {a : Index} (hcmd : a.toNat ≠ 2) (h : ¬(4 ≤ a.toNat ∧ a.toNat ≤ 7)) (v : Word) (s : State) :
    busWrite a v s = .next s := by
  have hreg : regAt a ≠ some .cmd := fun e => hcmd (index_of_regAt e ▸ rfl)
  rw [busWrite, if_neg hreg, writeWord_eq_self h]

/-- Settles O12: the host access is a write to the state the core step leaves, and an index is determined by its number. -/
theorem registerWriteStoresOrIsIgnored : Obligations.RegisterWriteStoresOrIsIgnored := by
  intro s c cs a v hin hr hbus u
  have hstep : step s = busWrite a v u := by
    rw [step_of_inputs_cons hin hr, hbus]
    rfl
  have hreg (r : RegName) (h : a.toNat = r.index.toNat) : step s = busWrite r.index v u := by
    rw [hstep, BitVec.eq_of_toNat_eq h]
  exact ⟨fun h => (hreg .tmax h).trans (busWrite_tmax v u), fun h => (hreg .tmin h).trans (busWrite_tmin v u),
    fun h => (hreg .initMode h).trans (busWrite_initMode v u), fun h => (hreg .stateWr h).trans (busWrite_stateWr v u),
    fun h => (hreg .cmd h).trans (busWrite_cmd v u),
    fun h2 h4 h5 h6 h7 => hstep.trans (busWrite_ignored h2 (by omega) v u)⟩

end Sys2Proof.Machine

/-! ## Command words and transaction words (30_encoding.md R90 to R97) -/

namespace Sys2Proof.Machine

/-! ### The opcode map -/

theorem ofOp_opOf (i : Instr) : ofOp (opOf i) = some i := by
  cases i <;> rfl

/-- An opcode names one command alone. -/
theorem opOf_of_ofOp {op : BitVec 4} {i : Instr} (h : ofOp op = some i) : opOf i = op := by
  have hall : ∀ op : BitVec 4, ∀ i ∈ ofOp op, opOf i = op := by decide
  exact hall op i h

/-! ### The fields of a command word -/

@[simp] theorem cmdRes_encode (i : Instr) : cmdRes (encode i) = 0 := BitVec.extractLsb'_append_eq_left

@[simp] theorem cmdOp_encode (i : Instr) : cmdOp (encode i) = opOf i := BitVec.extractLsb'_append_eq_right

/-- RES and OP are the whole word. -/
theorem cmdRes_append_cmdOp (w : Word) : cmdRes w ++ cmdOp w = w :=
  (BitVec.extractLsb'_append_extractLsb'_eq_extractLsb' rfl).trans BitVec.extractLsb'_eq_self

/-! ### Decoding by cases (30_encoding.md R91, R95) -/

theorem decode_reservedBits {w : Word} (h : cmdRes w ≠ 0) : decode w = .error .reservedBits := if_pos h

theorem decode_of_ofOp {w : Word} {i : Instr} (hres : cmdRes w = 0) (hop : ofOp (cmdOp w) = some i) : decode w = .ok i := by
  rw [decode, if_neg (not_not.mpr hres), hop]

theorem decode_reservedOpcode {w : Word} (hres : cmdRes w = 0) (hop : ofOp (cmdOp w) = none) :
    decode w = .error .reservedOpcode := by
  rw [decode, if_neg (not_not.mpr hres), hop]

@[simp] theorem decode_encode (i : Instr) : decode (encode i) = .ok i :=
  decode_of_ofOp (cmdRes_encode i) (by rw [cmdOp_encode, ofOp_opOf])

/-- A word that decodes to a command is that command's word. -/
theorem encode_of_decode {w : Word} {i : Instr} (h : decode w = .ok i) : encode i = w := by
  by_cases hres : cmdRes w = 0
  · cases hop : ofOp (cmdOp w) with
    | none =>
      rw [decode_reservedOpcode hres hop] at h
      contradiction
    | some j =>
      obtain rfl : j = i := Except.ok.inj ((decode_of_ofOp hres hop).symm.trans h)
      rw [encode, opOf_of_ofOp hop, ← hres, cmdRes_append_cmdOp]
  · rw [decode_reservedBits hres] at h
    contradiction

/-- Settles O3: RES of a command word is 0 and its OP is looked up to the command itself. -/
theorem decodeOfEncodeIsTheCommand : Obligations.DecodeOfEncodeIsTheCommand := fun i _ => decode_encode i

/-- Settles O2: six words are `encode` of a command, two have an opcode without one, four have a bit of RES set. -/
theorem commandWordsDecodeAsTabled : Obligations.CommandWordsDecodeAsTabled :=
  ⟨decode_encode .nop, decode_encode .generate, decode_encode .abort, decode_encode .select, decode_encode .loadState,
    decode_encode .step, decode_reservedOpcode (by decide) (by decide), decode_reservedOpcode (by decide) (by decide),
    decode_reservedBits (by decide), decode_reservedBits (by decide), decode_reservedBits (by decide),
    decode_reservedBits (by decide)⟩

/-! ### The legal words as numbers -/

theorem decode_eq_ok_iff (w : Word) (i : Instr) : decode w = .ok i ↔ w.toNat = (encode i).toNat := by
  constructor
  · intro h
    rw [encode_of_decode h]
  · intro h
    rw [BitVec.eq_of_toNat_eq h, decode_encode]

theorem toNat_encode_lt_six (i : Instr) : (encode i).toNat < 6 := by
  cases i <;> decide

/-- The words below 6 are all command words. -/
theorem exists_toNat_encode : ∀ n < 6, ∃ i : Instr, (encode i).toNat = n
  | 0, _ => ⟨.nop, rfl⟩
  | 1, _ => ⟨.generate, rfl⟩
  | 2, _ => ⟨.abort, rfl⟩
  | 3, _ => ⟨.select, rfl⟩
  | 4, _ => ⟨.loadState, rfl⟩
  | 5, _ => ⟨.step, rfl⟩

theorem exists_decode_eq_error_iff (w : Word) : (∃ e, decode w = .error e) ↔ 6 ≤ w.toNat := by
  constructor
  · rintro ⟨e, he⟩
    by_contra hlt
    obtain ⟨i, hi⟩ := exists_toNat_encode w.toNat (Nat.not_le.mp hlt)
    rw [(decode_eq_ok_iff w i).mpr hi.symm] at he
    contradiction
  · intro h6
    cases hd : decode w with
    | error e => exact ⟨e, rfl⟩
    | ok i =>
      have hw : w.toNat = (encode i).toNat := (decode_eq_ok_iff w i).mp hd
      have hlt := toNat_encode_lt_six i
      omega

/-- Settles O1: a word decodes to a command exactly when it is that command's word, and these are the numbers below 6. -/
theorem legalWordsAreZeroToFive : Obligations.LegalWordsAreZeroToFive := fun w =>
  ⟨decode_eq_ok_iff w .nop, decode_eq_ok_iff w .generate, decode_eq_ok_iff w .abort, decode_eq_ok_iff w .select,
    decode_eq_ok_iff w .loadState, decode_eq_ok_iff w .step, exists_decode_eq_error_iff w⟩

/-! ### The transaction word (30_encoding.md R90) -/

/-- Concatenation is multiplication by the low part's range and addition. -/
theorem toNat_append_eq_add {n m : Nat} (hi : BitVec n) (lo : BitVec m) :
    (hi ++ lo).toNat = hi.toNat * 2 ^ m + lo.toNat := by
  rw [BitVec.toNat_append, ← Nat.shiftLeft_add_eq_or_of_lt lo.isLt, Nat.shiftLeft_eq]

theorem toNat_busTxnEncode (t : BusTxn) :
    t.encode.toNat = (if t.we then 2 ^ 38 else 0) + t.addr.toNat * 2 ^ 32 + t.data.toNat := by
  rw [BusTxn.encode, toNat_append_eq_add, toNat_append_eq_add, Nat.add_mul, Nat.mul_assoc, BitVec.toNat_ofBool]
  cases t.we <;> rfl

/-- Each field of the word is one part of the concatenation. -/
theorem busTxnDecode_encode (t : BusTxn) : BusTxn.decode t.encode = t := by
  have hwe : t.encode.getLsbD 38 = t.we := by
    rw [BusTxn.encode, getLsbD_append_of_le _ _ (by decide), getLsbD_append_of_le _ _ (by decide)]
    cases t.we <;> rfl
  have haddr : t.encode.extractLsb' 32 6 = t.addr :=
    (BitVec.extractLsb'_append_eq_of_le (le_refl 32)).trans BitVec.extractLsb'_append_eq_right
  have hdata : t.encode.extractLsb' 0 32 = t.data := BitVec.extractLsb'_append_eq_right
  rw [BusTxn.decode, hwe, haddr, hdata]

/-- A bit as a word of one bit. -/
theorem ofBool_getLsbD {n : Nat} (w : BitVec n) (k : Nat) : BitVec.ofBool (w.getLsbD k) = w.extractLsb' k 1 := by
  refine BitVec.eq_of_getLsbD_eq fun i hi => ?_
  obtain rfl : i = 0 := Nat.lt_one_iff.mp hi
  simp

/-- The three fields are adjacent and cover the word. -/
theorem busTxnEncode_decode (w : BitVec 39) : (BusTxn.decode w).encode = w := by
  have hhigh : w.extractLsb' 38 1 ++ w.extractLsb' 32 6 = w.extractLsb' 32 7 :=
    BitVec.extractLsb'_append_extractLsb'_eq_extractLsb' rfl
  have hall : w.extractLsb' 32 7 ++ w.extractLsb' 0 32 = w :=
    (BitVec.extractLsb'_append_extractLsb'_eq_extractLsb' rfl).trans BitVec.extractLsb'_eq_self
  calc (BusTxn.decode w).encode
      = BitVec.ofBool (w.getLsbD 38) ++ w.extractLsb' 32 6 ++ w.extractLsb' 0 32 := rfl
    _ = w := by rw [ofBool_getLsbD, hhigh, hall]

/-- Settles O4: the word as a number, and the inverse on either side. -/
theorem transactionWordRoundTrips : Obligations.TransactionWordRoundTrips :=
  ⟨fun t => ⟨toNat_busTxnEncode t, busTxnDecode_encode t⟩, busTxnEncode_decode⟩

/-- Settles O5: fixed words, compared with the concatenation of their fields. -/
theorem hostLinesHaveTheirTransactionWords : Obligations.HostLinesHaveTheirTransactionWords := by
  unfold Obligations.HostLinesHaveTheirTransactionWords
  decide

end Sys2Proof.Machine

/-! ## Dispatch and the phase machine (40_command_dispatch.md R110 to R117) -/

namespace Sys2Proof.Machine

/-! ### A command word by phase -/

theorem State.Idle.not_halted {s : State} (h : s.Idle) : s.status.phase ≠ .halted := by
  simp [h.phase_idle]

theorem State.Busy.not_halted {s : State} (h : s.Busy) : s.status.phase ≠ .halted := by
  rcases h.phase_run with hp | hp | hp <;> simp [hp]

theorem command_of_halted {s : State} (h : s.status.phase = .halted) (w : Word) : command w s = .next s := by
  rcases command_cases w s with ⟨-, e⟩ | ⟨hn, -⟩ | ⟨hn, -⟩
  · exact e
  · exact absurd h hn
  · exact absurd h hn

theorem command_of_busy {s : State} (h : s.Busy) (w : Word) : command w s = .next (effectInBusy w s) := by
  rcases command_cases w s with ⟨hh, -⟩ | ⟨-, -, e⟩ | ⟨-, hb, -⟩
  · exact absurd hh h.not_halted
  · exact e
  · simp [h.is_busy] at hb

theorem command_of_idle {s : State} (h : s.Idle) (w : Word) : command w s = .next (effectInIdle w s) := by
  rcases command_cases w s with ⟨hh, -⟩ | ⟨-, hb, -⟩ | ⟨-, -, e⟩
  · exact absurd hh h.not_halted
  · simp [h.not_busy] at hb
  · exact e

/-- Settles O16: the gate of `dispatch` stops every word in HALTED. -/
theorem haltedIgnoresEveryWord : Obligations.HaltedIgnoresEveryWord := fun _ w h => command_of_halted h w

/-! ### Legal words -/

theorem command_of_decode {w : Word} {i : Instr} (h : decode w = .ok i) (s : State) : command w s = exec i s := by
  rw [command, h]

/-- Settles O13: a register write to word 2 is the CMD write, and the word it writes decodes to the command. -/
theorem stepRunsTheWrittenCommand : Obligations.StepRunsTheWrittenCommand := by
  intro s c cs w i hin hr hbus hdec
  obtain ⟨-, -, -, -, hcmd, -⟩ := registerWriteStoresOrIsIgnored s c cs 2 w hin hr hbus
  exact (hcmd rfl).trans (command_of_decode hdec _)

/-- Settles O17: 0 is the command word of NOP, whose meaning is the state as it was. -/
theorem nopChangesNothing : Obligations.NopChangesNothing := ⟨decode_encode .nop, fun _ => rfl⟩

/-! ### Illegal and dropped words -/

theorem effectInIdle_illegal {w : Word} (h : 6 ≤ w.toNat) (s : State) :
    effectInIdle w s = raiseError .illegalCommand 0 (clearReport s) := by
  obtain ⟨e, he⟩ := (exists_decode_eq_error_iff w).mpr h
  rw [effectInIdle, he]

/-- The STATUS word shows an ILLEGAL_COMMAND report in IDLE and no other bit. -/
theorem word_illegalCommand {f : Status} (hp : f.phase = .idle) (hb : f.busy = false) (hf : f.fatal = false) :
    (f.clearReport.raise .illegalCommand 0).word = 0x00000604 := by
  simp [Status.word, hp, hb, hf, Phase.code, ErrCode.code]

/-- Settles O14: the decoder refuses the word, so in IDLE its effect is the clearing and the error report. -/
theorem illegalWordInIdleIsReported : Obligations.IllegalWordInIdleIsReported := by
  intro s w hs h6
  have hcmd : command w s = .next (raiseError .illegalCommand 0 (clearReport s)) := by
    rw [command_of_idle hs, effectInIdle_illegal h6]
  refine ⟨hcmd, fun hf t ht => ?_⟩
  obtain rfl := Host.Outcome.next.inj (hcmd.symm.trans ht)
  exact word_illegalCommand hs.phase_idle hs.not_busy hf

theorem effectInBusy_dropped {w : Word} (h0 : w.toNat ≠ 0) (h2 : w.toNat ≠ 2) (s : State) :
    effectInBusy w s = dropWord s := by
  unfold effectInBusy
  split
  · next hd => exact absurd ((decode_eq_ok_iff w .nop).mp hd) h0
  · next hd => exact absurd ((decode_eq_ok_iff w .abort).mp hd) h2
  · rfl

/-- Settles O15: a word that is neither NOP's nor ABORT's is dropped, legal or not. -/
theorem busyDropsOtherWords : Obligations.BusyDropsOtherWords := by
  intro s w hs h0 h2
  rw [command_of_busy hs, effectInBusy_dropped h0 h2]
  rfl

/-! ### ABORT -/

theorem exec_abort_of_busy {s : State} (h : s.Busy) : exec .abort s = .next (abortRun s) :=
  congrArg Host.Outcome.next (gate_busy h.not_halted h.is_busy)

theorem exec_abort_of_idle {s : State} (h : s.Idle) : exec .abort s = .next (clearReport s) :=
  congrArg Host.Outcome.next (gate_idle h.not_halted h.not_busy)

/-- Settles O18: the gate lets ABORT end the run while BUSY and clear the report in IDLE; no sample is offered in IDLE. -/
theorem abortEndsTheRunOrClearsStatus : Obligations.AbortEndsTheRunOrClearsStatus := by
  refine fun s => ⟨fun hs => ⟨exec_abort_of_busy hs, fun t ht => ?_⟩, exec_abort_of_idle⟩
  obtain rfl := Host.Outcome.next.inj ((exec_abort_of_busy hs).symm.trans ht)
  exact ⟨rfl, rfl⟩

/-! ### Where a core step moves PHASE -/

theorem coreStep_of_check {s : State} (h : s.status.phase = .check) (c : CycleIn) : coreStep c s = checkStep s := by
  rw [coreStep, h]

theorem finalSample_iff {s : State} : finalSample s = true ↔ s.sampleCnt.toNat + 1 = s.sel.len.toNat := beq_iff_eq

/-- A RUN step keeps PHASE or, on the final sample, moves it to CHECK. -/
theorem runStep_phase (s : State) :
    (runStep s).status.phase = s.status.phase
      ∨ s.sampleCnt.toNat + 1 = s.sel.len.toNat ∧ (runStep s).status.phase = .check := by
  by_cases hl : finalSample s = true
  · exact .inr ⟨finalSample_iff.mp hl, by rw [runStep_status, if_pos hl]⟩
  · exact .inl (by rw [runStep_status, if_neg hl])

/-- A CHECK step ends the run, in IDLE with DONE or in HALTED with FATAL. -/
theorem checkStep_phase (s : State) :
    ((checkStep s).status.phase = .idle ∧ (checkStep s).status.done = true)
      ∨ ((checkStep s).status.phase = .halted ∧ (checkStep s).status.fatal = true) := by
  rw [checkStep_status]
  split
  · exact .inl ⟨rfl, rfl⟩
  · exact .inr ⟨rfl, rfl⟩

/-! ### Where a command word moves PHASE -/

theorem validate_phase (s : State) : (validate s).2.status.phase = s.status.phase := by
  rcases validate_cases s with ⟨code, detail, -, e⟩ | ⟨-, e⟩
  · rw [e]
    rfl
  · rw [e]
    rcases selectWidth_cases (sint32 s.host.tmax).toNat (sint32 s.host.tmin).toNat (clearDerived (latchParams s)) with
      ⟨-, e'⟩ | ⟨-, -, e'⟩ <;> rw [e'] <;> rfl

/-- GENERATE starts a run in SEED, or validation fails and PHASE stays. -/
theorem generate_phase (s : State) : (generate s).status.phase = s.status.phase ∨ (generate s).status.phase = .seed := by
  unfold generate
  split
  · exact .inr rfl
  · exact .inl (validate_phase s)

theorem loadState_phase (s : State) : (loadState s).status.phase = s.status.phase := by
  unfold loadState
  split_ifs <;> rfl

theorem stepCmd_phase (s : State) : (stepCmd s).status.phase = s.status.phase := by
  unfold stepCmd
  split_ifs <;> rfl

/-- In IDLE only GENERATE, word 1, can move PHASE. -/
theorem effectInIdle_phase (w : Word) (s : State) :
    (effectInIdle w s).status.phase = s.status.phase ∨ w.toNat = 1 ∧ (effectInIdle w s).status.phase = .seed := by
  unfold effectInIdle
  split
  · exact .inl rfl
  · next hd => exact (generate_phase (clearReport s)).imp id (⟨(decode_eq_ok_iff w .generate).mp hd, ·⟩)
  · exact .inl rfl
  · exact .inl (validate_phase (clearReport s))
  · exact .inl (loadState_phase (clearReport s))
  · exact .inl (stepCmd_phase (clearReport s))
  · exact .inl rfl

/-- While BUSY only ABORT, word 2, moves PHASE. -/
theorem effectInBusy_phase (w : Word) (s : State) :
    (effectInBusy w s).status.phase = s.status.phase
      ∨ w.toNat = 2 ∧ (effectInBusy w s).status.phase = .idle ∧ (effectInBusy w s).status.error = true := by
  unfold effectInBusy
  split
  · exact .inl rfl
  · next hd => exact .inr ⟨(decode_eq_ok_iff w .abort).mp hd, rfl, rfl⟩
  · exact .inl rfl

/-- Settles O41: each core step by the phase that enables it, each command word by the three cases of `dispatch`. -/
theorem phaseMovesAsTabled : Obligations.PhaseMovesAsTabled := by
  refine ⟨fun s c => ?_, fun s t w hs ht => ?_⟩
  · by_cases hc : s.status.phase = .check
    · rw [coreStep_of_check hc]
      exact .inr (.inr (.inr ((checkStep_phase s).imp (⟨hc, ·⟩) (⟨hc, ·⟩))))
    · rcases coreStep_cases c s with e | ⟨hp, v, e⟩ | ⟨hp, hready, e⟩ | ⟨hp, -⟩
      · exact .inl ⟨by rw [e], hc⟩
      · exact .inr (.inl ⟨hp, by rw [e, setSeed_status]⟩)
      · rw [e]
        rcases runStep_phase s with hkeep | ⟨hlast, hcheck⟩
        · exact .inl ⟨hkeep, hc⟩
        · exact .inr (.inr (.inl ⟨hp, hready, hlast, hcheck⟩))
      · exact absurd hp hc
  · rcases command_cases w s with ⟨-, e⟩ | ⟨-, hb, e⟩ | ⟨hp, hb, e⟩ <;>
      obtain rfl := Host.Outcome.next.inj (e.symm.trans ht)
    · exact .inl rfl
    · have hbusy : s.Busy := ⟨hs.busy_iff.mp hb, hb⟩
      exact (effectInBusy_phase w s).imp id fun h => .inr ⟨hbusy, h⟩
    · have hidle : s.status.phase = .idle := hs.idle_of hp hb
      exact (effectInIdle_phase w s).imp id fun h => .inl ⟨hidle, h⟩

end Sys2Proof.Machine

/-! ## Parameter validation, width selection and the bounds of the counters (41_width_selector.md, 20_memory.md R67) -/

namespace Sys2Proof.Machine

/-! ### SELECT and GENERATE in IDLE -/

theorem exec_select_of_idle {s : State} (h : s.Idle) : exec .select s = .next (validate (clearReport s)).2 :=
  congrArg Host.Outcome.next (gate_idle h.not_halted h.not_busy)

theorem exec_generate_of_idle {s : State} (h : s.Idle) : exec .generate s = .next (generate (clearReport s)) :=
  congrArg Host.Outcome.next (gate_idle h.not_halted h.not_busy)

/-- A validation that fails is all that SELECT and GENERATE do: no run starts. -/
theorem exec_of_validate_false {s t : State} {i : Instr} (hs : s.Idle) (hi : i = .select ∨ i = .generate)
    (h : validate (clearReport s) = (false, t)) : exec i s = .next t := by
  rcases hi with rfl | rfl
  · rw [exec_select_of_idle hs, h]
  · rw [exec_generate_of_idle hs, generate, h]
    rfl

/-! ### The checks before the width (41_width_selector.md R132, R134) -/

theorem paramError_of_tmax_lt {a : Int} (b : Int) (m : Word) (ha : a < 2) : paramError a b m = some (.outOfRange, 1) :=
  if_pos ha

theorem paramError_of_tmin_lt {a b : Int} (m : Word) (ha : 2 ≤ a) (hb : b < 1) :
    paramError a b m = some (.outOfRange, 2) := by
  rw [paramError, if_neg (by omega), if_pos hb]

theorem paramError_of_tmax_le {a b : Int} (m : Word) (ha : 2 ≤ a) (hb : 1 ≤ b) (hab : a ≤ b) :
    paramError a b m = some (.outOfRange, 3) := by
  rw [paramError, if_neg (by omega), if_neg (by omega), if_pos hab]

theorem paramError_of_mode {a b : Int} {m : Word} (ha : 2 ≤ a) (hb : 1 ≤ b) (hab : b < a) (h0 : m ≠ modeRandom)
    (h1 : m ≠ modeOnes) : paramError a b m = some (.unsupportedOption, 0) := by
  rw [paramError, if_neg (by omega), if_neg (by omega), if_neg (by omega), if_pos ⟨h0, h1⟩]

/-- A check that fails is reported over the fresh state, by SELECT and by GENERATE. -/
theorem exec_of_paramError {s : State} {i : Instr} {code : ErrCode} {detail : BitVec 2} (hs : s.Idle)
    (hi : i = .select ∨ i = .generate)
    (h : paramError (sint32 s.host.tmax) (sint32 s.host.tmin) s.host.initMode = some (code, detail)) :
    exec i s = .next (s.fresh.reporting code detail) := by
  rcases validate_cases (clearReport s) with ⟨code', detail', hp, e⟩ | ⟨hp, -⟩
  · obtain ⟨rfl, rfl⟩ := Prod.mk.inj (Option.some.inj (h.symm.trans hp))
    exact exec_of_validate_false hs hi e
  · exact absurd (h.symm.trans hp) (Option.some_ne_none _)

/-- Settles O19: the checks on Tmax and Tmin, in their order. -/
theorem outOfRangeParametersAreReported : Obligations.OutOfRangeParametersAreReported := fun _ _ hs hi =>
  ⟨fun ha => exec_of_paramError hs hi (paramError_of_tmax_lt _ _ ha),
    fun ha hb => exec_of_paramError hs hi (paramError_of_tmin_lt _ ha hb),
    fun ha hb hab => exec_of_paramError hs hi (paramError_of_tmax_le _ ha hb hab)⟩

/-- Settles O20: the check on the mode is the last before the width. -/
theorem unsupportedModeIsReported : Obligations.UnsupportedModeIsReported := fun _ _ hs hi ha hb hab h0 h1 =>
  exec_of_paramError hs hi (paramError_of_mode ha hb hab h0 h1)

/-! ### The width (41_width_selector.md R135 to R137) -/

/-- A pair that passes the checks comes to the width check, with the fresh state. -/
theorem validate_of_pair {s : State} {a b : Nat} (ha : sint32 s.host.tmax = a) (hb : sint32 s.host.tmin = b) (h1 : 1 ≤ b)
    (hab : b < a) (hm : s.host.initMode = 0 ∨ s.host.initMode = 1) :
    validate (clearReport s) = selectWidth a b s.fresh := by
  have hnone : paramError (sint32 s.host.tmax) (sint32 s.host.tmin) s.host.initMode = none :=
    paramError_eq_none.mpr ⟨by omega, by omega, by omega, hm⟩
  rcases validate_cases (clearReport s) with ⟨code, detail, hp, -⟩ | ⟨-, e⟩
  · exact absurd (hp.symm.trans hnone) (Option.some_ne_none _)
  · rw [e, clearReport_host, ha, hb, fresh_eq]
    rfl

theorem selectWidth_of_gt {a b : Nat} (h : 31 < ceilDiv a b) (s : State) :
    selectWidth a b s = (false, raiseError .configurationError 0 (setWidthCalc (ceilDiv a b) s)) := by
  rcases selectWidth_cases a b s with ⟨-, e⟩ | ⟨-, hle, -⟩
  · exact e
  · omega

theorem selectWidth_of_in_range {a b : Nat} (h2 : 2 ≤ ceilDiv a b) (h31 : ceilDiv a b ≤ 31) (s : State) :
    selectWidth a b s = (true, setSelection (ceilDiv a b) b (setWidthCalc (ceilDiv a b) s)) := by
  rcases selectWidth_cases a b s with ⟨hout, -⟩ | ⟨-, -, e⟩
  · omega
  · exact e

/-- No pair with Tmin < Tmax has a width below 2 (41_width_selector.md R136). -/
theorem two_le_of_le_mul {a b c : Nat} (hab : b < a) (h : a ≤ c * b) : 2 ≤ c := by
  by_contra hc
  have : c * b ≤ 1 * b := Nat.mul_le_mul_right b (by omega)
  omega

/-- A width is at most Tmax, so it fits WIDTH_CALC (41_width_selector.md R135). -/
theorem le_of_pred_mul_lt {a b c : Nat} (hb : 1 ≤ b) (h : (c - 1) * b < a) : c ≤ a := by
  have : (c - 1) * 1 ≤ (c - 1) * b := Nat.mul_le_mul_left (c - 1) hb
  omega

/-- Settles O21: the ceiling is above 1 since Tmin < Tmax, and one above 31 ends in the width check. -/
theorem tooWideIsReported : Obligations.TooWideIsReported := by
  intro s i a b c hs hi ha hb h1 hab hm hge hleast
  have hc : ceilDiv a b = c := ceilDiv_eq h1 hge hleast
  have hca : c ≤ a := le_of_pred_mul_lt h1 hleast
  have halt := sint32_lt s.host.tmax
  refine ⟨two_le_of_le_mul hab hge, fun h31 => ⟨BitVec.ofNat 32 c, Nat.mod_eq_of_lt (by omega), ?_⟩⟩
  refine exec_of_validate_false hs hi ?_
  rw [validate_of_pair ha hb h1 hab hm, selectWidth_of_gt (by omega), hc]
  rfl

/-- The registers of a selection hold its numbers: none of them wraps (41_width_selector.md R141). -/
theorem toNat_setSelection {b c : Nat} (hc : c ≤ 31) (hb : b < 2 ^ 31) (s : State) :
    (setSelection c b s).sel.width.toNat = c ∧ (setSelection c b s).sel.period.toNat = 2 ^ c - 1
      ∧ (setSelection c b s).sel.len.toNat = (2 ^ c - 1) * b := by
  have hpow : 2 ^ c ≤ 2 ^ 31 := Nat.pow_le_pow_right (by decide) hc
  have hlen : (2 ^ c - 1) * b ≤ 2 ^ 31 * 2 ^ 31 := Nat.mul_le_mul (by omega) (by omega)
  have hpos : 0 < 2 ^ c := Nat.two_pow_pos c
  exact ⟨Nat.mod_eq_of_lt (by omega), Nat.mod_eq_of_lt (by omega), Nat.mod_eq_of_lt (by omega)⟩

/-- What validation makes of a pair it accepts. -/
theorem validate_of_accepted {s : State} {a b c : Nat} (h : Accepted s a b c) :
    ∃ sel : Selection,
      sel.widthCalc.toNat = c ∧ sel.width.toNat = c ∧ sel.taps = tapRom c ∧ sel.period.toNat = 2 ^ c - 1
        ∧ sel.len.toNat = (2 ^ c - 1) * b ∧ validate (clearReport s) = (true, { s.fresh with sel := sel }) := by
  obtain ⟨ha, hb, h1, hab, hm, hge, hleast, h31⟩ := h
  have hc : ceilDiv a b = c := ceilDiv_eq h1 hge hleast
  have h2 : 2 ≤ c := two_le_of_le_mul hab hge
  have hblt := sint32_lt s.host.tmin
  obtain ⟨hwidth, hperiod, hlen⟩ := toNat_setSelection h31 (b := b) (by omega) (setWidthCalc c s.fresh)
  refine ⟨_, Nat.mod_eq_of_lt (by omega), hwidth, rfl, hperiod, hlen, ?_⟩
  rw [validate_of_pair ha hb h1 hab hm, selectWidth_of_in_range (by omega) (by omega), hc]
  rfl

/-- Settles O22: SELECT is validation alone. -/
theorem selectChoosesTheWidth : Obligations.SelectChoosesTheWidth := by
  intro s a b c hs hacc
  obtain ⟨sel, hcalc, hwidth, htaps, hperiod, hlen, hval⟩ := validate_of_accepted hacc
  exact ⟨sel, hcalc, hwidth, htaps, hperiod, hlen, by rw [exec_select_of_idle hs, hval]⟩

/-! ### The bounds of the selection and of the counters (41_width_selector.md R142, 20_memory.md R67) -/

theorem Selected.tmin_le {s : State} (h : Selected s) : s.tmin ≤ 2 ^ 31 - 2 := by
  have hlt := h.tmin_lt
  have hmax : s.tmax < 2 ^ 31 := sint32_lt s.latched.pTmax
  omega

theorem Selected.len_le {s : State} (h : Selected s) : s.sel.len.toNat ≤ (2 ^ 31 - 1) * (2 ^ 31 - 2) := by
  obtain ⟨t, ht, -, -, hlen, hw⟩ := h.nat
  have htmin := h.tmin_le
  have hpow : 2 ^ s.sel.width.toNat ≤ 2 ^ 31 := Nat.pow_le_pow_right (by decide) hw
  rw [hlen]
  exact Nat.mul_le_mul (by omega) (by omega)

theorem SelectionInv.len_le {s : State} (h : SelectionInv s) : s.sel.len.toNat ≤ (2 ^ 31 - 1) * (2 ^ 31 - 2) := by
  by_cases hw : s.sel.width = 0
  · obtain ⟨-, -, -, hlen⟩ := h.unselected hw
    simp [hlen]
  · exact (h.selected hw).len_le

/-- The ceiling of SAMPLE_CNT / Tmin is at most that of LEN / Tmin. -/
theorem Running.stepCnt_le {s : State} (h : Running s) (hsel : Selected s) :
    s.lfsr.stepCnt.toNat ≤ s.sel.period.toNat := by
  obtain ⟨t, ht, ht1, -, hlen, -⟩ := hsel.nat
  obtain ⟨-, hlt⟩ := h.stepCnt_bounds ht ht1
  have hcnt := h.cnt_le
  rw [hlen, ← hsel.period_eq] at hcnt
  have hmul : s.lfsr.stepCnt.toNat * t < (s.sel.period.toNat + 1) * t := by
    rw [Nat.add_mul, Nat.one_mul]
    omega
  exact Nat.lt_succ_iff.mp (Nat.lt_of_mul_lt_mul_right hmul)

theorem State.Inv.stepCnt_le_of_busy {s : State} (h : s.Inv) (hb : s.status.busy = true) :
    s.lfsr.stepCnt.toNat ≤ s.sel.period.toNat := by
  rcases h.status.busy_iff.mp hb with hp | hp
  · rw [(h.seeding hp).lfsr_empty]
    exact Nat.zero_le _
  · have hrun := h.running hp
    exact hrun.stepCnt_le (h.selection.selected hrun.width_ne)

/-! ### What makes STEP_CNT smaller -/

/-- A core step leaves STEP_CNT, or counts one step of a run, far below the wrap. -/
theorem coreStep_stepCnt {s : State} (h : s.Inv) (c : CycleIn) :
    (coreStep c s).lfsr.stepCnt = s.lfsr.stepCnt
      ∨ (coreStep c s).lfsr.stepCnt.toNat = s.lfsr.stepCnt.toNat + 1 ∧ s.lfsr.stepCnt.toNat < 2 ^ 31 := by
  rcases coreStep_cases c s with e | ⟨-, v, e⟩ | ⟨hp, -, e⟩ | ⟨-, e⟩ <;> rw [e]
  · exact .inl rfl
  · exact .inl rfl
  · have hle := h.stepCnt_le_of_busy (h.status.busy_iff.mpr (.inr (.inl hp)))
    have hperiod := s.sel.period.isLt
    rw [runStep_lfsr, advanceLfsr]
    split
    · have hnext : (s.lfsr.stepCnt + 1).toNat = s.lfsr.stepCnt.toNat + 1 := BitVec.toNat_add_of_lt (by simp; omega)
      exact .inr ⟨hnext, by omega⟩
    · exact .inl rfl
  · exact .inl rfl

theorem validate_lfsr (s : State) : (validate s).2.lfsr = .reset := by
  rcases validate_cases s with ⟨code, detail, -, e⟩ | ⟨-, e⟩
  · rw [e]
    rfl
  · rw [e]
    rcases selectWidth_cases (sint32 s.host.tmax).toNat (sint32 s.host.tmin).toNat (clearDerived (latchParams s)) with
      ⟨-, e'⟩ | ⟨-, -, e'⟩ <;> rw [e'] <;> rfl

theorem generate_lfsr (s : State) : (generate s).lfsr = .reset := by
  unfold generate
  split <;> exact validate_lfsr s

theorem loadState_stepCnt (s : State) :
    (loadState s).lfsr.stepCnt = s.lfsr.stepCnt ∨ (loadState s).lfsr.stepCnt = 0 := by
  unfold loadState
  split_ifs
  · exact .inl rfl
  · exact .inl rfl
  · exact .inr rfl

theorem stepCmd_stepCnt (s : State) :
    (stepCmd s).lfsr.stepCnt = s.lfsr.stepCnt ∨ (stepCmd s).lfsr.stepCnt = s.lfsr.stepCnt + 1 := by
  unfold stepCmd
  split_ifs
  · exact .inl rfl
  · exact .inl rfl
  · exact .inr rfl

/-- In IDLE a command word leaves STEP_CNT, clears it by GENERATE, SELECT or LOAD_STATE, or counts a STEP. -/
theorem effectInIdle_stepCnt (w : Word) (s : State) :
    (effectInIdle w s).lfsr.stepCnt = s.lfsr.stepCnt
      ∨ ((effectInIdle w s).lfsr.stepCnt = 0 ∧ (w.toNat = 1 ∨ w.toNat = 3 ∨ w.toNat = 4))
      ∨ ((effectInIdle w s).lfsr.stepCnt = s.lfsr.stepCnt + 1 ∧ w.toNat = 5) := by
  unfold effectInIdle
  split
  · exact .inl rfl
  · next hd => exact .inr (.inl ⟨by rw [generate_lfsr]; rfl, .inl ((decode_eq_ok_iff w .generate).mp hd)⟩)
  · exact .inl rfl
  · next hd => exact .inr (.inl ⟨by rw [validate_lfsr]; rfl, .inr (.inl ((decode_eq_ok_iff w .select).mp hd))⟩)
  · next hd =>
    exact (loadState_stepCnt (clearReport s)).imp id fun h =>
      .inl ⟨h, .inr (.inr ((decode_eq_ok_iff w .loadState).mp hd))⟩
  · next hd => exact (stepCmd_stepCnt (clearReport s)).imp id fun h => .inr ⟨h, (decode_eq_ok_iff w .step).mp hd⟩
  · exact .inl rfl

theorem effectInBusy_lfsr (w : Word) (s : State) : (effectInBusy w s).lfsr = s.lfsr := by
  unfold effectInBusy
  split <;> rfl

/-- A count that gets smaller by counting one more was at its last value, and is 0. -/
theorem eq_max_of_toNat_add_one_lt {x : Word} (h : (x + 1).toNat < x.toNat) : x + 1 = 0 ∧ x.toNat = 2 ^ 32 - 1 := by
  bv_omega

theorem command_stepCnt_lt {s t : State} {w : Word} (h : command w s = .next t)
    (hlt : t.lfsr.stepCnt.toNat < s.lfsr.stepCnt.toNat) :
    t.lfsr.stepCnt = 0
      ∧ (w.toNat = 1 ∨ w.toNat = 3 ∨ w.toNat = 4 ∨ (w.toNat = 5 ∧ s.lfsr.stepCnt.toNat = 2 ^ 32 - 1)) := by
  rcases command_cases w s with ⟨-, e⟩ | ⟨-, -, e⟩ | ⟨-, -, e⟩ <;> obtain rfl := Host.Outcome.next.inj (e.symm.trans h)
  · exact absurd hlt (lt_irrefl _)
  · rw [effectInBusy_lfsr] at hlt
    exact absurd hlt (lt_irrefl _)
  · rcases effectInIdle_stepCnt w s with hkeep | ⟨hzero, hw⟩ | ⟨hcount, hw⟩
    · rw [hkeep] at hlt
      exact absurd hlt (lt_irrefl _)
    · exact ⟨hzero, by omega⟩
    · rw [hcount] at hlt ⊢
      obtain ⟨hzero, hmax⟩ := eq_max_of_toNat_add_one_lt hlt
      exact ⟨hzero, .inr (.inr (.inr ⟨hw, hmax⟩))⟩

/-- Of the host accesses only a CMD write touches the LFSR. -/
theorem hostAccess_lfsr_cases {bus : Option BusTxn} {before s t : State} (h : hostAccess bus before s = .next t) :
    t.lfsr = s.lfsr ∨ ∃ w, bus = some { we := true, addr := 2, data := w } ∧ command w s = .next t := by
  rcases hostAccess_cases bus before s with ⟨-, e⟩ | ⟨a, v, -, e⟩ | ⟨a, v, hbus, ha, e⟩ | ⟨a, v, -, -, e⟩ <;> rw [e] at h
  · exact .inl (Host.Outcome.next.inj h ▸ rfl)
  · exact .inl (Host.Outcome.next.inj h ▸ rfl)
  · obtain rfl : 2 = a := index_of_regAt ha
    exact .inr ⟨v, hbus, h⟩
  · obtain rfl := Host.Outcome.next.inj h
    exact .inl (by rw [writeWord_frame])

/-- Settles O50: the bounds are the invariant's; a step makes STEP_CNT smaller by its host access alone, since no core step
does, and of the host accesses only a CMD write of one of the four words can. -/
theorem onlyDebugStepWrapsACounter : Obligations.OnlyDebugStepWrapsACounter := by
  refine ⟨fun s hs => ?_, fun s t hs hstep hr hlt => ?_⟩
  · have h := hs.inv
    have hlen := h.selection.len_le
    exact ⟨hlen, by omega, by omega, fun hw => (h.selection.selected hw).tmin_le, h.counts.cnt_le, h.counts.cur_le,
      h.counts.max_le, h.stepCnt_le_of_busy⟩
  · have hcore := coreStep_stepCnt (takeInput_inv hs) (nextInput s)
    rw [takeInput_lfsr] at hcore
    have hle : s.lfsr.stepCnt.toNat ≤ (coreStep (nextInput s) (takeInput s)).lfsr.stepCnt.toNat := by
      rcases hcore with e | ⟨e, -⟩ <;> rw [e]
      omega
    rcases hostAccess_lfsr_cases (hostAccess_of_step hstep hr) with hkeep | ⟨w, hbus, hcmd⟩
    · rw [hkeep] at hlt
      omega
    · obtain ⟨hzero, hw⟩ := command_stepCnt_lt hcmd (hlt.trans_le hle)
      refine ⟨hzero, w, hbus, ?_⟩
      rcases hcore with e | ⟨e, hsmall⟩
      · rw [← e]
        exact hw
      · omega

/-! ### The tap table (41_width_selector.md R139, R140) -/

theorem readWord_tapRom {w : Nat} (hw : w < 32) (s : State) :
    readWord (BitVec.ofNat 6 (32 + w)) s = (tapRom w).setWidth 32 := by
  have hidx : BitVec.ofNat 6 (32 + w) = (RegName.tapRom (BitVec.ofNat 5 w)).index := by
    refine BitVec.eq_of_toNat_eq ?_
    rw [toNat_index_tapRom, BitVec.toNat_ofNat, BitVec.toNat_ofNat]
    omega
  rw [hidx, readWord_index, readReg, BitVec.toNat_ofNat, Nat.mod_eq_of_lt hw]

/-- Settles O9: the words 32 to 63 read the masks of the 32 tap lists, and these are the table's. -/
theorem tapRomReadsTheTable : Obligations.TapRomReadsTheTable := by
  intro s
  rw [List.map_congr_left fun w hw => readWord_tapRom (List.mem_range.mp hw) s]
  decide

/-- A table mask has evenly many taps: the feedback of the all-ones state, where each tap is a 1, is 0. -/
theorem parity_tapRom {w : Nat} (h2 : 2 ≤ w) (h31 : w ≤ 31) : parity (tapRom w) = false := by
  have heven : ∀ w < 32, xorAt (tapList w) (BitVec.allOnes 31) = false := by decide
  calc parity (tapRom w) = feedback (BitVec.allOnes 31) (tapRom w) := by rw [feedback, BitVec.allOnes_and]
    _ = xorAt (tapList w) (BitVec.allOnes 31) := feedback_tapRom h2 h31 _
    _ = false := heven w (Nat.lt_succ_of_le h31)

/-- Settles O10: the top bit and the bound are read off the 30 rows of the table, the parity off their tap lists. -/
theorem tapMasksFitTheirWidth : Obligations.TapMasksFitTheirWidth := by
  have hrow : ∀ w < 32, 2 ≤ w → (tapRom w).getLsbD (w - 1) = true ∧ (tapRom w).toNat < 2 ^ w := by decide
  intro w h2 h31
  obtain ⟨htop, hlt⟩ := hrow w (Nat.lt_succ_of_le h31) h2
  exact ⟨htop, hlt, parity_tapRom h2 h31⟩

end Sys2Proof.Machine

/-! ## The LFSR: LOAD_STATE, STEP, one step, the raw outputs and the period (42_lfsr_engine.md R151 to R159) -/

namespace Sys2Proof.Machine

/-! ### LOAD_STATE and STEP in IDLE (42_lfsr_engine.md R158, R159) -/

theorem exec_loadState_of_idle {s : State} (h : s.Idle) : exec .loadState s = .next (loadState (clearReport s)) :=
  congrArg Host.Outcome.next (gate_idle h.not_halted h.not_busy)

theorem exec_step_of_idle {s : State} (h : s.Idle) : exec .step s = .next (stepCmd (clearReport s)) :=
  congrArg Host.Outcome.next (gate_idle h.not_halted h.not_busy)

theorem loadState_of_unconfigured {s : State} (h : s.sel.width = 0) : loadState s = raiseError .notConfigured 0 s :=
  if_pos h

theorem stepCmd_of_unconfigured {s : State} (h : s.sel.width = 0) : stepCmd s = raiseError .notConfigured 0 s :=
  if_pos h

theorem loadState_of_zero {s : State} (hw : s.sel.width ≠ 0) (h : loadValue s.sel.width.toNat s.host.stateWr = 0) :
    loadState s = raiseError .zeroState 0 s := by
  rw [loadState, if_neg hw, if_pos h]

theorem stepCmd_of_zero {s : State} (hw : s.sel.width ≠ 0) (h : s.lfsr.state = 0) :
    stepCmd s = raiseError .zeroState 0 s := by
  rw [stepCmd, if_neg hw, if_pos h]

theorem loadState_of_nonzero {s : State} (hw : s.sel.width ≠ 0) (h : loadValue s.sel.width.toNat s.host.stateWr ≠ 0) :
    loadState s =
      { s with lfsr := { s.lfsr with state := loadValue s.sel.width.toNat s.host.stateWr, stepCnt := 0 } } := by
  rw [loadState, if_neg hw, if_neg h]

theorem stepCmd_of_nonzero {s : State} (hw : s.sel.width ≠ 0) (h : s.lfsr.state ≠ 0) :
    stepCmd s = { s with lfsr := s.lfsr.stepOnce s.sel.width.toNat s.sel.taps } := by
  rw [stepCmd, if_neg hw, if_neg h]

/-- What LOAD_STATE would load is zero when STATE_WR's low bits are. -/
theorem loadValue_eq_zero_iff {n : Nat} (hn : n ≤ 31) (w : Word) : loadValue n w = 0 ↔ w.toNat % 2 ^ n = 0 := by
  rw [← toNat_loadValue hn, BitVec.toNat_eq]
  rfl

/-- Settles O24: the two checks in their order, over the cleared report; the value loaded is STATE_WR modulo 2^WIDTH. -/
theorem loadStateLoadsTheLowBits : Obligations.LoadStateLoadsTheLowBits := by
  intro s hs clean
  have hzero := loadValue_eq_zero_iff (width_le s) s.host.stateWr
  rw [exec_loadState_of_idle hs]
  refine ⟨fun hw => ?_, fun hw h0 => ?_, fun hw h0 => ⟨_, toNat_loadValue (width_le s) s.host.stateWr, ?_⟩⟩
  · rw [loadState_of_unconfigured (s := clearReport s) hw]
    rfl
  · rw [loadState_of_zero (s := clearReport s) hw (hzero.mpr h0)]
    rfl
  · rw [loadState_of_nonzero (s := clearReport s) hw (mt hzero.mp h0)]
    rfl

/-- Settles O25: the two checks in their order, over the cleared report; STEP_CNT + 1 is the sum modulo 2^32. -/
theorem stepStepsTheRegisterOnce : Obligations.StepStepsTheRegisterOnce := by
  intro s hs clean
  rw [exec_step_of_idle hs]
  refine ⟨fun hw => ?_, fun hw h0 => ?_, fun hw h0 => ⟨_, BitVec.toNat_add s.lfsr.stepCnt 1, ?_⟩⟩
  · rw [stepCmd_of_unconfigured (s := clearReport s) hw]
    rfl
  · rw [stepCmd_of_zero (s := clearReport s) hw h0]
    rfl
  · rw [stepCmd_of_nonzero (s := clearReport s) hw h0]
    rfl

/-! ### One step (42_lfsr_engine.md R151) -/

/-- Settles O26: the bits of the shifted state, and the tap positions of a table mask. -/
theorem lfsrStepShiftsAndFeedsBack : Obligations.LfsrStepShiftsAndFeedsBack := fun n s m h2 hn _ =>
  ⟨lfsrNext_getLsbD_zero s n m, fun i hi => by simp [lfsrStep, lfsrNext_getLsbD_succ hn, hi],
    lfsrNext_lt (by omega) hn s m, topBit_eq (by omega) s, feedback_tapRom h2 hn s⟩

/-! ### The raw outputs (42_lfsr_engine.md R153) -/

theorem rawBit_eq {n : Nat} (h1 : 1 ≤ n) (t s : Bits31) (k : Nat) :
    rawBit n t s k = (lfsrIter n t s k).getLsbD (n - 1) :=
  topBit_eq h1 _

/-- The outputs from the state after `k` steps are the outputs from number `k` on. -/
theorem rawBit_lfsrIter (n : Nat) (t s : Bits31) (k j : Nat) : rawBit n t (lfsrIter n t s k) j = rawBit n t s (j + k) := by
  rw [rawBit, rawBit, Period.lfsrIter_add]

/-- The seed leaves the register bit by bit, from the output end. -/
theorem rawBit_of_lt {n : Nat} (hn : n ≤ 31) (t s : Bits31) {k : Nat} (hk : k < n) :
    rawBit n t s k = s.getLsbD (n - 1 - k) := by
  have hshift := lfsrIter_getLsbD_add hn t s 0 (n - 1 - k) k (by omega)
  rwa [Nat.zero_add, show n - 1 - k + k = n - 1 by omega, ← rawBit_eq (by omega)] at hshift

/-- Output `n` is the XOR of the outputs `n - t` over the taps `t`: the top bit of the recurrence on states. -/
theorem rawBit_width {n : Nat} (h2 : 2 ≤ n) (hn : n ≤ 31) {s : Bits31} (hs : s.toNat < 2 ^ n) :
    rawBit n (tapRom n) s n = (tapList n).foldl (fun x t => x != rawBit n (tapRom n) s (n - t)) false := by
  simp only [rawBit_eq (show 1 ≤ n by omega)]
  rw [Period.lfsrIter_width h2 hn hs, Period.getLsbD_foldr_xor]

/-- Settles O28: output `k + n` is output `n` from the state after `k` steps. -/
theorem rawOutputsObeyTheRecurrence : Obligations.RawOutputsObeyTheRecurrence := by
  intro n s h2 hn hs
  refine ⟨fun k hk => rawBit_of_lt hn _ s hk, fun k => ?_⟩
  obtain ⟨r, hr, hlt⟩ := tapList_shape h2 hn
  have hle : ∀ t ∈ tapList n, t ≤ n := by
    rw [hr]
    exact List.forall_mem_cons.mpr ⟨le_rfl, fun t ht => (hlt t ht).2.le⟩
  have hn' := rawBit_width h2 hn (lfsrIter_lt (by omega) hn hs (tapRom n) k)
  simp only [rawBit_lfsrIter] at hn'
  rw [Nat.add_comm k n, hn']
  refine List.foldl_ext _ _ _ fun x t ht => ?_
  rw [show n + k - t = n - t + k by have := hle t ht; omega]

/-! ### The prime factors of a period (42_lfsr_engine.md R156) -/

theorem lfsrIter_eq_iterate (n : Nat) (t s : Bits31) (k : Nat) : lfsrIter n t s k = (lfsrNext · n t)^[k] s := by
  induction k with
  | zero => rfl
  | succ k ih => rw [lfsrIter, ih, Function.iterate_succ_apply']

theorem isPeriodicPt_lfsrNext_iff {n : Nat} {t s : Bits31} {k : Nat} :
    Function.IsPeriodicPt (lfsrNext · n t) k s ↔ lfsrIter n t s k = s := by
  rw [lfsrIter_eq_iterate]
  rfl

/-- A period `N` no `N / p` of which, for a prime factor `p` of `N`, is a period is the least one. -/
theorem minimalPeriod_eq_of_forall_prime {α : Type} {f : α → α} {x : α} {N : Nat} (hN : Function.IsPeriodicPt f N x)
    (hp : ∀ p : Nat, p.Prime → p ∣ N → ¬Function.IsPeriodicPt f (N / p) x) : Function.minimalPeriod f x = N := by
  obtain ⟨d, hd⟩ := hN.minimalPeriod_dvd
  by_contra hne
  have hd1 : d ≠ 1 := by
    rintro rfl
    exact hne (by rw [hd, Nat.mul_one])
  obtain ⟨p, hprime, e, rfl⟩ := Nat.exists_prime_and_dvd hd1
  refine hp p hprime ⟨Function.minimalPeriod f x * e, by rw [hd]; ac_rfl⟩ ?_
  have hquot : N / p = Function.minimalPeriod f x * e := by
    rw [hd, show Function.minimalPeriod f x * (p * e) = p * (Function.minimalPeriod f x * e) by ac_rfl,
      Nat.mul_div_cancel_left _ hprime.pos]
  rw [hquot]
  exact (Function.isPeriodicPt_minimalPeriod f x).mul_const e

/-- The prime factors of the period `2^n - 1`, by width. -/
def periodPrimes (n : Nat) : List Nat :=
  match n with
  | 2 => [3]
  | 3 => [7]
  | 4 => [3, 5]
  | 5 => [31]
  | 6 => [3, 7]
  | 7 => [127]
  | 8 => [3, 5, 17]
  | 9 => [7, 73]
  | 10 => [3, 11, 31]
  | 11 => [23, 89]
  | 12 => [3, 5, 7, 13]
  | 13 => [8191]
  | 14 => [3, 43, 127]
  | 15 => [7, 31, 151]
  | 16 => [3, 5, 17, 257]
  | 17 => [131071]
  | 18 => [3, 7, 19, 73]
  | 19 => [524287]
  | 20 => [3, 5, 11, 31, 41]
  | 21 => [7, 127, 337]
  | 22 => [3, 23, 89, 683]
  | 23 => [47, 178481]
  | 24 => [3, 5, 7, 13, 17, 241]
  | 25 => [31, 601, 1801]
  | 26 => [3, 2731, 8191]
  | 27 => [7, 73, 262657]
  | 28 => [3, 5, 29, 43, 113, 127]
  | 29 => [233, 1103, 2089]
  | 30 => [3, 7, 11, 31, 151, 331]
  | 31 => [2147483647]
  | _ => []

/-- The Lucas-Lehmer test: trial division is too long for the last width. -/
theorem prime_two_pow_31_sub_one : Nat.Prime 2147483647 :=
  lucas_lehmer_sufficiency 31 (by norm_num) (by norm_num)

theorem prime_of_mem_periodPrimes {n p : Nat} (hn : n ≤ 31) (hp : p ∈ periodPrimes n) : p.Prime := by
  rcases hn.eq_or_lt with rfl | hlt
  · exact List.mem_singleton.mp hp ▸ prime_two_pow_31_sub_one
  · revert p
    interval_cases n <;> norm_num [periodPrimes]

/-- No prime factor of a period is missing: none has a multiplicity above 3, and a prime divides a product of primes only as
one of them. -/
theorem mem_periodPrimes {n p : Nat} (h2 : 2 ≤ n) (hn : n ≤ 31) (hp : p.Prime) (hdvd : p ∣ 2 ^ n - 1) :
    p ∈ periodPrimes n := by
  have hall : ∀ n < 32, 2 ≤ n → 2 ^ n - 1 ∣ (periodPrimes n).prod ^ 3 := by decide
  have hprod : p ∣ (periodPrimes n).prod := hp.dvd_of_dvd_pow (hdvd.trans (hall n (by omega) h2))
  obtain ⟨q, hq, hpq⟩ := (Prime.dvd_prod_iff hp.prime).mp hprod
  rwa [(Nat.prime_dvd_prime_iff_eq hp (prime_of_mem_periodPrimes hn hq)).mp hpq]

/-- The certificate of every width: modulo the characteristic polynomial of the table mask, x^(2^n-1) = 1, and
x^((2^n-1)/p) - 1 is invertible for every prime factor p. -/
theorem cert_tapList : ∀ n < 32, 2 ≤ n →
    Period.cert n (2 ^ n ^^^ Period.poly n (tapList n)) (2 ^ n - 1) (periodPrimes n) = true := by decide +kernel

/-! ### The orbit of a nonzero state (42_lfsr_engine.md R156) -/

theorem toNat_pos_of_ne_zero {x : Bits31} (h : x ≠ 0) : 1 ≤ x.toNat :=
  Nat.pos_of_ne_zero fun e => h (BitVec.eq_of_toNat_eq e)

section
variable {n : Nat} {s : Bits31} (h2 : 2 ≤ n) (hn : n ≤ 31) (hs : s.toNat < 2 ^ n) (h0 : s ≠ 0)
include h2 hn hs h0

theorem lfsrIter_period : lfsrIter n (tapRom n) s (2 ^ n - 1) = s :=
  (Period.of_cert h2 hn (Period.kills_tapRom h2 hn) (cert_tapList n (by omega) h2) hs h0).1

theorem minimalPeriod_lfsrNext : Function.minimalPeriod (lfsrNext · n (tapRom n)) s = 2 ^ n - 1 := by
  obtain ⟨hback, hnot⟩ := Period.of_cert h2 hn (Period.kills_tapRom h2 hn) (cert_tapList n (by omega) h2) hs h0
  refine minimalPeriod_eq_of_forall_prime (isPeriodicPt_lfsrNext_iff.mpr hback) fun p hp hdvd h => ?_
  exact hnot p (mem_periodPrimes h2 hn hp hdvd) (isPeriodicPt_lfsrNext_iff.mp h)

theorem lfsrIter_injOn : Set.InjOn (lfsrIter n (tapRom n) s) (Set.Iio (2 ^ n - 1)) := by
  have hinj := Function.iterate_injOn_Iio_minimalPeriod (f := (lfsrNext · n (tapRom n))) (x := s)
  rw [minimalPeriod_lfsrNext h2 hn hs h0] at hinj
  exact hinj.congr fun k _ => (lfsrIter_eq_iterate n (tapRom n) s k).symm

/-- As many distinct nonzero states as there are nonzero numbers below 2^n are all of them. -/
theorem exists_lfsrIter_eq {x : Bits31} (hx : x.toNat < 2 ^ n) (hx0 : x ≠ 0) :
    ∃ i, i < 2 ^ n - 1 ∧ lfsrIter n (tapRom n) s i = x := by
  have hmaps : Set.MapsTo (fun i => (lfsrIter n (tapRom n) s i).toNat) (Finset.range (2 ^ n - 1)) (Finset.Ico 1 (2 ^ n)) :=
    fun i _ => Finset.mem_coe.mpr <| Finset.mem_Ico.mpr
      ⟨toNat_pos_of_ne_zero (lfsrIter_ne_zero h2 hn hs h0 i), lfsrIter_lt (by omega) hn hs _ i⟩
  have hinj : Set.InjOn (fun i => (lfsrIter n (tapRom n) s i).toNat) (Finset.range (2 ^ n - 1)) := by
    rw [Finset.coe_range]
    exact fun i hi j hj e => lfsrIter_injOn h2 hn hs h0 hi hj (BitVec.eq_of_toNat_eq e)
  obtain ⟨i, hi, e⟩ := Finset.surjOn_of_injOn_of_card_le _ hmaps hinj (by simp)
    (Finset.mem_coe.mpr (Finset.mem_Ico.mpr ⟨toNat_pos_of_ne_zero hx0, hx⟩))
  exact ⟨i, Finset.mem_range.mp hi, BitVec.eq_of_toNat_eq e⟩

end

/-- Settles O29: the least period of every nonzero state is 2^n - 1, so the states of one period are distinct, and all. -/
theorem everyTapMaskIsMaximalLength : Obligations.EveryTapMaskIsMaximalLength := by
  intro n s h2 hn hs h0
  refine ⟨lfsrIter_period h2 hn hs h0, fun i j hij hj e => ?_, fun x hx hx0 => exists_lfsrIter_eq h2 hn hs h0 hx hx0⟩
  exact hij.ne (lfsrIter_injOn h2 hn hs h0 (hij.trans hj) hj e)

/-! ### The fixed states and the inverse (42_lfsr_engine.md R152) -/

/-- All ones feed back 0, since a table mask has evenly many taps. -/
theorem feedback_lowMask_tapRom {n : Nat} (h2 : 2 ≤ n) (hn : n ≤ 31) : feedback (lowMask n) (tapRom n) = false := by
  have hlow : lowMask n &&& tapRom n = tapRom n := by
    obtain ⟨-, hlt, -⟩ := tapMasksFitTheirWidth n h2 hn
    refine BitVec.eq_of_toNat_eq ?_
    rw [BitVec.and_comm]
    exact (toNat_lowBits hn (tapRom n)).trans (Nat.mod_eq_of_lt hlt)
  rw [feedback, hlow, parity_tapRom h2 hn]

/-- All ones step to all ones but bit 0. -/
theorem lfsrNext_lowMask {n : Nat} (h2 : 2 ≤ n) (hn : n ≤ 31) :
    lfsrNext (lowMask n) n (tapRom n) = BitVec.ofNat 31 (2 ^ n - 2) := by
  have hhalf : (2 ^ n - 2) / 2 = 2 ^ (n - 1) - 1 ∧ (2 ^ n - 2) % 2 = 0 := by
    obtain ⟨m, rfl⟩ : ∃ m, n = m + 1 := ⟨n - 1, by omega⟩
    rw [Nat.add_sub_cancel, Nat.pow_succ]
    omega
  refine BitVec.eq_of_getLsbD_eq fun i hi => ?_
  rw [BitVec.getLsbD_ofNat]
  cases i with
  | zero =>
    rw [lfsrNext_getLsbD_zero, feedback_lowMask_tapRom h2 hn, Nat.testBit_zero, hhalf.2]
    rfl
  | succ i =>
    rw [lfsrNext_getLsbD_succ hn, getLsbD_lowMask hn, Nat.testBit_succ, hhalf.1, Nat.testBit_two_pow_sub_one]
    simp only [hi, decide_true, Bool.true_and, ← Bool.decide_and, decide_eq_decide]
    omega

/-- Settles O27: zero feeds back 0, all ones too; the step is one to one, and a fixed point other than 0 would have the
period 1 and not 2^n - 1. -/
theorem lfsrStepIsInvertible : Obligations.LfsrStepIsInvertible := by
  intro n h2 hn
  refine ⟨?_, ?_, fun s t hs ht => lfsrNext_inj h2 hn hs ht, fun s hs h0 => ⟨lfsrNext_ne_zero h2 hn hs h0, fun hfix => ?_⟩⟩
  · rw [lfsrStep, topBit_eq (by omega)]
    exact Prod.ext (lfsrNext_zero n _) (by simp)
  · have htop : topBit n (lowMask n) = true := by
      rw [topBit_eq (by omega), getLsbD_lowMask hn]
      exact decide_eq_true (by omega)
    exact Prod.ext (lfsrNext_lowMask h2 hn) htop
  · have h4 : 2 ^ 2 ≤ 2 ^ n := Nat.pow_le_pow_right (by decide) h2
    obtain ⟨-, hne, -⟩ := everyTapMaskIsMaximalLength n s h2 hn hs h0
    exact hne 0 1 Nat.one_pos (by omega) hfix.symm

end Sys2Proof.Machine

/-! ## The sequence generator: GENERATE, the SEED and RUN steps, and what a run is worth (43_prbs_generator.md R170 to R180) -/

namespace Sys2Proof.Machine

/-! ### GENERATE (43_prbs_generator.md R170) -/

theorem generate_of_validate_true {s t : State} (h : validate s = (true, t)) : generate s = startRun t := by
  rw [generate, h]
  rfl

/-- Settles O23: GENERATE is the validation of SELECT and, for a pair it accepts, the start of a run. -/
theorem generateStartsARun : Obligations.GenerateStartsARun := by
  intro s a b c hs hacc
  obtain ⟨sel, hcalc, hwidth, htaps, hperiod, hlen, hval⟩ := validate_of_accepted hacc
  refine ⟨sel, hcalc, hwidth, htaps, hperiod, hlen, ?_⟩
  rw [exec_generate_of_idle hs, generate_of_validate_true hval]
  rfl

/-! ### The SEED step (43_prbs_generator.md R172) -/

theorem lowBits_eq_zero_iff {n : Nat} (hn : n ≤ 31) (v : Bits31) : lowBits n v = 0 ↔ v.toNat % 2 ^ n = 0 := by
  rw [← toNat_lowBits hn, BitVec.toNat_eq]
  rfl

/-- Settles O30: Ones seeds with the mask of the width; Random takes an offer modulo 2^WIDTH, and discards it when that is 0. -/
theorem seedStepChoosesTheSeed : Obligations.SeedStepChoosesTheSeed := by
  intro s c hp
  rw [coreStep_of_seed hp]
  refine ⟨fun hm => ⟨_, toNat_lowMask (width_le s), seedStep_of_ones hm c.rng⟩, fun hm hrng => ?_, fun hm d hrng h0 => ?_,
    fun hm d hrng h0 => ⟨_, toNat_lowBits (width_le s) d, ?_⟩⟩
  · rw [hrng, seedStep_none_of_random hm]
  · rw [hrng, seedStep_some_of_random hm, if_pos ((lowBits_eq_zero_iff (width_le s) d).mpr h0)]
  · rw [hrng, seedStep_some_of_random hm, if_neg (mt (lowBits_eq_zero_iff (width_le s) d).mp h0)]
    rfl

/-! ### The RUN step (43_prbs_generator.md R174) -/

theorem coreStep_of_stall {s : State} (h : s.status.phase = .run) {c : CycleIn} (hc : c.sReady = false) :
    coreStep c s = s := by
  rw [coreStep, h]
  exact if_neg (by simp [hc])

/-- SAMPLE_CNT + 1 does not wrap below LEN. -/
theorem toNat_sampleCnt_succ {s : State} (h : s.sampleCnt.toNat < s.sel.len.toNat) :
    (s.sampleCnt + 1).toNat = s.sampleCnt.toNat + 1 := by
  have hlt := s.sel.len.isLt
  rw [BitVec.toNat_add]
  exact Nat.mod_eq_of_lt (by simp; omega)

/-- With Tmin ≥ 1 the LFSR steps when Tmin divides SAMPLE_CNT. -/
theorem advanceLfsr_eq {s : State} (h : 1 ≤ s.tmin) :
    advanceLfsr s =
      if s.sampleCnt.toNat % s.tmin.toNat = 0 then s.lfsr.stepOnce s.sel.width.toNat s.sel.taps else s.lfsr := by
  rw [advanceLfsr, firstCopy_eq (t := s.tmin.toNat) (by omega) (by omega)]
  simp only [beq_iff_eq]

/-- In RUN the status after an accepted sample differs in PHASE alone, which is CHECK after the final sample. -/
theorem runStep_status_of_run {s : State} (h : s.status.phase = .run) :
    (runStep s).status = { s.status with phase := if finalSample s then .check else .run } := by
  rw [runStep_status]
  split
  · rfl
  · rw [← h]

/-- Settles O31: a consumer that waits enables no step; one that accepts makes the RUN step, whose LFSR half and PHASE are given
by SAMPLE_CNT modulo Tmin and by SAMPLE_CNT + 1. -/
theorem runStepEmitsOneSample : Obligations.RunStepEmitsOneSample := by
  intro s c hp
  refine ⟨coreStep_of_stall hp, ?_⟩
  intro hc ht hlt j fin r
  refine ⟨_, toNat_sampleCnt_succ hlt, ?_⟩
  have hlfsr : advanceLfsr s = r := advanceLfsr_eq ht
  have hstatus : (runStep s).status = { s.status with phase := if fin then .check else .run } := runStep_status_of_run hp
  rw [coreStep_of_run hp hc, ← hlfsr, ← hstatus]
  rfl

/-! ### The stream of a run (43_prbs_generator.md R175 to R177) -/

theorem StreamOk.getElem?_outVals {s : State} (h : StreamOk s) {k : Nat} (hk : k < s.out.length) :
    s.outVals[k]? = some (rawBit s.sel.width.toNat s.sel.taps s.lfsr.seed (k / s.tmin.toNat)) := by
  rw [State.outVals, List.getElem?_map, h k hk]
  rfl

/-- Settles O51: the run's part of the invariant. -/
theorem streamIsTheExpandedRawSequence : Obligations.StreamIsTheExpandedRawSequence := by
  intro s hs hp
  have hrun := hs.inv.running hp
  exact ⟨hrun.out_length, fun k hk => hrun.stream.getElem?_outVals hk, hrun.state_eq, hrun.seed_ok.seed_ne⟩

/-- PERIOD steps lead back to the seed of a run (42_lfsr_engine.md R156). -/
theorem SeedOk.lfsrIter_seed_period {s : State} (h : SeedOk s) (hsel : Selected s) :
    lfsrIter s.sel.width.toNat s.sel.taps s.lfsr.seed s.sel.period.toNat = s.lfsr.seed := by
  rw [hsel.taps_eq, hsel.period_eq]
  exact lfsrIter_period hsel.width_ge (width_le s) h.seed_lt h.seed_ne

/-- Settles O57: all LEN samples took PERIOD steps, and the table mask's period is PERIOD; the check changes none of the
three. -/
theorem registerIsBackAtItsSeed : Obligations.RegisterIsBackAtItsSeed := by
  intro s hs hp
  have h := hs.inv
  rcases hp with hcheck | hchecked
  · have hrun := h.running (.inr hcheck)
    have hsel := h.selection.selected hrun.width_ne
    have hfull := h.check_all hcheck
    have hsteps := hrun.stepCnt_of_full hsel hfull
    exact ⟨hsteps, by rw [hrun.state_eq, hsteps, hrun.seed_ok.lfsrIter_seed_period hsel], hfull⟩
  · have hchk := h.checked hchecked
    have hsel := h.selection.selected hchk.width_ne
    exact ⟨hchk.steps_eq, by rw [hchk.state_eq, hchk.seed_ok.lfsrIter_seed_period hsel], hchk.cnt_eq⟩

/-! ### Determinism (43_prbs_generator.md R180) -/

/-- STATUS of a checked run: what the comparisons of RL_MAX and RL_MIN with the latched bounds make of a clean report
(44_run_length_enforcer.md R192 to R194). -/
def checkedStatus (l : Latched) (e : Enforcer) (dropped : Bool) : Status :=
  if (e.rlMax.toNat : Int) = sint32 l.pTmax ∧ (e.rlMin.toNat : Int) = sint32 l.pTmin then
    { Status.reset with dropped := dropped }.pass
  else
    { Status.reset with dropped := dropped }.violate (decide ((e.rlMax.toNat : Int) = sint32 l.pTmax))
      (decide ((e.rlMin.toNat : Int) = sint32 l.pTmin))

theorem StatusInv.busy_eq_false {f : Status} (h : StatusInv f) (hp : f.phase = .idle ∨ f.phase = .halted) :
    f.busy = false := by
  rw [← Bool.not_eq_true, h.busy_iff]
  rcases hp with hp | hp <;> simp [hp]

theorem StatusInv.eq_of_done {f : Status} (h : StatusInv f) (hd : f.done = true) (d : Bool) :
    { f with dropped := d } = { Status.reset with dropped := d }.pass := by
  obtain ⟨herr, hp⟩ := h.done_clean hd
  obtain ⟨hcode, hdetail⟩ := h.no_error_no_code herr
  have hfatal := h.not_fatal (by simp [hp])
  rw [h.busy_eq_false (.inl hp), hd, herr, hfatal, hp, hcode, hdetail]
  rfl

theorem StatusInv.eq_of_halted {f : Status} (h : StatusInv f) (hp : f.phase = .halted) {x y : Bool}
    (hdetail : f.errDetail = violationDetail x y) (d : Bool) :
    { f with dropped := d } = { Status.reset with dropped := d }.violate x y := by
  have hfatal := h.fatal_iff.mpr hp
  obtain ⟨herr, hcode⟩ := h.fatal_error hfatal
  have hdone : f.done = false := by
    by_contra hd
    simp [(h.done_clean (by simpa using hd)).2] at hp
  rw [h.busy_eq_false (.inr hp), hdone, herr, hfatal, hp, hcode, hdetail]
  rfl

/-- The parameters and the enforcer's registers determine STATUS after a check, but for DROPPED. -/
theorem State.Inv.status_of_checked {s : State} (h : s.Inv) (hc : s.status.done = true ∨ s.status.phase = .halted)
    (d : Bool) : { s.status with dropped := d } = checkedStatus s.latched s.enf d := by
  rcases hc with hd | hp
  · exact (h.status.eq_of_done hd d).trans (if_pos (h.done_exact hd)).symm
  · exact (h.status.eq_of_halted hp (h.halted_detail hp) d).trans (if_neg (h.halted_inexact hp)).symm

theorem tmin_eq_of_latched_eq {s t : State} (h : s.latched = t.latched) : s.tmin = t.tmin := by
  rw [State.tmin, State.tmin, h]

/-- The latched parameters determine the selection. -/
theorem Selected.sel_eq {s t : State} (hs : Selected s) (ht : Selected t) (h : s.latched = t.latched) : s.sel = t.sel := by
  have hmin := tmin_eq_of_latched_eq h
  have hmax : s.tmax = t.tmax := by rw [State.tmax, State.tmax, h]
  have hwidth : s.sel.width.toNat = t.sel.width.toNat := by rw [hs.width_eq, ht.width_eq, hmin, hmax]
  have hcalc : s.sel.widthCalc.toNat = t.sel.widthCalc.toNat := by rw [hs.calc_eq, ht.calc_eq, hwidth]
  have htaps : s.sel.taps = t.sel.taps := by rw [hs.taps_eq, ht.taps_eq, hwidth]
  have hperiod : s.sel.period.toNat = t.sel.period.toNat := by rw [hs.period_eq, ht.period_eq, hwidth]
  have hlen : (s.sel.len.toNat : Int) = t.sel.len.toNat := by rw [hs.len_eq, ht.len_eq, hwidth, hmin]
  exact (Selection.mk.injEq ..).mpr ⟨BitVec.eq_of_toNat_eq hcalc, BitVec.eq_of_toNat_eq hwidth, htaps,
    BitVec.eq_of_toNat_eq hperiod, BitVec.eq_of_toNat_eq (by exact_mod_cast hlen)⟩

section
variable {s t : State} (hs : Checked s) (ht : Checked t) (hsel : s.sel = t.sel) (hseed : s.lfsr.seed = t.lfsr.seed)
include hs ht hsel hseed

/-- The selection and the seed determine the LFSR's registers after a check. -/
theorem Checked.lfsr_eq : s.lfsr = t.lfsr := by
  have hstate : s.lfsr.state = t.lfsr.state := by rw [hs.state_eq, ht.state_eq, hsel, hseed]
  have hlast : s.lfsr.lastOut = t.lfsr.lastOut := by rw [hs.last_eq, ht.last_eq, hsel, hseed]
  have hsteps : s.lfsr.stepCnt.toNat = t.lfsr.stepCnt.toNat := by rw [hs.steps_eq, ht.steps_eq, hsel]
  exact (LfsrRegs.mk.injEq ..).mpr ⟨hstate, hseed, hlast, BitVec.eq_of_toNat_eq hsteps⟩

/-- The parameters, the selection and the seed determine the stream of a checked run. -/
theorem Checked.out_eq (hlatched : s.latched = t.latched) : s.out = t.out := by
  have hmin := tmin_eq_of_latched_eq hlatched
  have hlen : s.out.length = t.out.length := by rw [hs.out_length, ht.out_length, hsel]
  refine List.ext_getElem? fun k => ?_
  by_cases hk : k < s.out.length
  · rw [hs.stream k hk, ht.stream k (hlen ▸ hk), hsel, hseed, hmin]
  · rw [List.getElem?_eq_none (by omega), List.getElem?_eq_none (by omega)]

end

/-- Settles O53: the parameters determine the selection, in Ones mode the seed too; these determine the stream and the LFSR, the
stream the enforcer's registers, and they the outcome of the check. -/
theorem checkedRunsAreDeterministic : Obligations.CheckedRunsAreDeterministic := by
  intro s t hs ht hsc htc hlatched hmode
  have hchks := hs.inv.checked hsc
  have hchkt := ht.inv.checked htc
  have hsel : s.sel = t.sel :=
    (hs.inv.selection.selected hchks.width_ne).sel_eq (ht.inv.selection.selected hchkt.width_ne) hlatched
  have hseed : s.lfsr.seed = t.lfsr.seed := hmode.elim
    (fun h1 => by rw [hchks.seed_ok.seed_ones h1, hchkt.seed_ok.seed_ones (hlatched ▸ h1), hsel]) id
  have hout := hchks.out_eq hchkt hsel hseed hlatched
  have henf : s.enf = t.enf := by rw [hchks.enf_eq, hchkt.enf_eq, State.outVals, State.outVals, hout]
  refine ⟨hout, hsel, hchks.lfsr_eq hchkt hsel hseed, by rw [hchks.cnt_eq, hchkt.cnt_eq, hsel], henf, ?_⟩
  rw [hs.inv.status_of_checked hsc, hlatched, henf]
  exact (ht.inv.status_of_checked htc t.status.dropped).symm

/-! ### The length of an Ones run (43_prbs_generator.md R178) -/

theorem coreStep_inputs (c : CycleIn) (s : State) : (coreStep c s).inputs = s.inputs := by
  rcases coreStep_cases c s with e | ⟨-, v, e⟩ | ⟨-, -, e⟩ | ⟨-, e⟩ <;> rw [e] <;> rfl

/-- A cycle without reset and host access is the core step alone. -/
theorem step_of_quiet {s : State} {ready : Bool} {rng : Option Bits31} {cs : List CycleIn}
    (hin : s.inputs = quiet ready rng :: cs) : step s = .next (coreStep (quiet ready rng) (takeInput s)) := by
  rw [step_of_inputs_cons hin rfl, takeInput, hin]
  rfl

theorem coreRun_succ {M : Host.Core} {s t : M.State} (h : M.step s = .next t) (k : Nat) :
    M.run (k + 1) s = M.run k t := by
  rw [Host.Core.run, h]

/-- The core steps a run still takes when every sample is accepted: one in SEED, one for each sample, one in CHECK; with none
left the check is done. -/
def State.StepsLeft (s : State) : Nat → Prop
  | 0 => s.status.done = true ∨ s.status.phase = .halted
  | n + 1 =>
    s.status.phase = .check ∧ n = 0
      ∨ s.status.phase = .run ∧ s.sampleCnt.toNat + n = s.sel.len.toNat
      ∨ s.status.phase = .seed ∧ n = s.sel.len.toNat + 1

theorem StatusInv.busy_of_stepsLeft {s : State} (h : StatusInv s.status) {n : Nat} (hn : s.StepsLeft (n + 1)) :
    s.status.busy = true := by
  rcases hn with ⟨hp, -⟩ | ⟨hp, -⟩ | ⟨hp, -⟩
  · exact h.busy_iff.mpr (.inr (.inr hp))
  · exact h.busy_iff.mpr (.inr (.inl hp))
  · exact h.busy_iff.mpr (.inl hp)

/-- An accepted sample leaves one step less. -/
theorem stepsLeft_runStep {s : State} (hp : s.status.phase = .run) {n : Nat}
    (hn : s.sampleCnt.toNat + (n + 1) = s.sel.len.toNat) : (runStep s).StepsLeft (n + 1) := by
  have hcnt : (s.sampleCnt + 1).toNat = s.sampleCnt.toNat + 1 := toNat_sampleCnt_succ (by omega)
  have hphase : (runStep s).status.phase = if finalSample s then .check else .run := by
    rw [runStep_status_of_run hp]
  by_cases hfin : finalSample s = true
  · rw [if_pos hfin] at hphase
    have hlast := finalSample_iff.mp hfin
    exact .inl ⟨hphase, by omega⟩
  · rw [if_neg hfin] at hphase
    refine .inr (.inl ⟨hphase, ?_⟩)
    rw [runStep_sampleCnt, runStep_sel, hcnt]
    omega

/-- In Ones mode, with the consumer ready, every cycle of a run takes one of the steps left. -/
theorem stepsLeft_coreStep {s : State} (h : s.Inv) (hm : s.latched.pMode = modeOnes) {n : Nat} {c : CycleIn}
    (hc : c.sReady = true) (hn : s.StepsLeft (n + 1)) : (coreStep c s).StepsLeft n := by
  rcases hn with ⟨hp, rfl⟩ | ⟨hp, hn⟩ | ⟨hp, rfl⟩
  · rw [coreStep_of_check hp]
    exact (checkStep_phase s).imp And.right And.left
  · have hmore := h.run_more hp
    obtain ⟨m, rfl⟩ : ∃ m, n = m + 1 := ⟨n - 1, by omega⟩
    rw [coreStep_of_run hp hc]
    exact stepsLeft_runStep hp hn
  · rw [coreStep_of_seed hp, seedStep_of_ones hm]
    refine .inr (.inl ⟨rfl, ?_⟩)
    rw [setSeed_sampleCnt, setSeed_sel, (h.seeding hp).cnt_zero]
    exact Nat.zero_add _

/-- An Ones run with `k` ready cycles ahead takes `k` of the steps left. -/
theorem run_of_stepsLeft {s : State} {k n : Nat} {rest : List CycleIn} (h : s.Inv) (hm : s.latched.pMode = modeOnes)
    (hn : s.StepsLeft (n + k)) (hin : s.inputs = List.replicate k (quiet true none) ++ rest) :
    ∃ t : State, core.run k s = .next t ∧ t.inputs = rest ∧ t.Inv ∧ t.StepsLeft n := by
  induction k generalizing s with
  | zero => exact ⟨s, rfl, hin, h, hn⟩
  | succ k ih =>
    rw [List.replicate_succ, List.cons_append] at hin
    rw [coreRun_succ (M := core) (step_of_quiet hin)]
    have htake := takeInput_inv h
    obtain ⟨-, hlatched, -⟩ := coreStep_frame (quiet true none) (takeInput s)
    refine ih (coreStep_inv htake _) (by rw [hlatched]; exact hm) (stepsLeft_coreStep htake hm rfl hn) ?_
    rw [coreStep_inputs, takeInput_inputs, hin, List.tail_cons]

/-- Settles O54: in SEED a run has LEN + 2 steps left, each ready cycle takes one, and it is BUSY while one is left. -/
theorem onesRunEndsAfterItsSteps : Obligations.OnesRunEndsAfterItsSteps := by
  intro s rest h hp hm hin
  refine ⟨?_, fun k hk => ?_⟩
  · have hleft : s.StepsLeft (0 + (s.sel.len.toNat + 2)) := by
      rw [Nat.zero_add]
      exact .inr (.inr ⟨hp, rfl⟩)
    obtain ⟨t, ht, hrest, -, hend⟩ := run_of_stepsLeft h hm hleft hin
    exact ⟨t, ht, hrest, hend⟩
  · obtain ⟨m, hsum⟩ : ∃ m, s.sel.len.toNat + 2 = (m + 1) + k := ⟨s.sel.len.toNat + 1 - k, by omega⟩
    have hleft : s.StepsLeft (s.sel.len.toNat + 2) := .inr (.inr ⟨hp, rfl⟩)
    rw [hsum] at hleft
    rw [hsum, Nat.add_comm (m + 1) k, List.replicate_add, List.append_assoc] at hin
    obtain ⟨t, ht, -, hinv, hbusy⟩ := run_of_stepsLeft h hm hleft hin
    exact ⟨t, ht, hinv.status.busy_of_stepsLeft hbusy⟩

end Sys2Proof.Machine

/-! ## The run-length enforcer: run tracking, the CHECK step, and when it passes (44_run_length_enforcer.md R190 to R198) -/

namespace Sys2Proof.Machine

/-! ### Run tracking (44_run_length_enforcer.md R190, R191) -/

theorem Enforcer.update_of_first {e : Enforcer} (h : e.hasRun = false) (b : Bool) :
    e.update b = { e with curVal := b, rlCurLen := 1, hasRun := true } := by
  rw [Enforcer.update, h]
  rfl

theorem Enforcer.update_of_eq {e : Enforcer} (h : e.hasRun = true) {b : Bool} (hb : b = e.curVal) :
    e.update b = { e with rlCurLen := e.rlCurLen + 1 } := by
  rw [Enforcer.update, h, if_neg (by decide), if_pos (beq_iff_eq.mpr hb)]

theorem Enforcer.update_of_ne {e : Enforcer} (h : e.hasRun = true) {b : Bool} (hb : b ≠ e.curVal) :
    e.update b =
      { e with
        rlMax := countMax e.rlMax e.rlCurLen
        rlMin := countMin e.rlMin e.rlCurLen
        curVal := b
        rlCurLen := 1 } := by
  rw [Enforcer.update, h, if_neg (by decide), if_neg (mt beq_iff_eq.mp hb)]

/-- Settles O36: the three branches of `enforcer_update`. -/
theorem enforcerUpdateTracksRuns : Obligations.EnforcerUpdateTracksRuns := fun _ b =>
  ⟨fun h => Enforcer.update_of_first h b, fun h hb => Enforcer.update_of_eq h hb,
    fun h hb => ⟨_, _, toNat_countMax _ _, toNat_countMin _ _, Enforcer.update_of_ne h hb⟩⟩

theorem Enforcer.track_concat (l : List Bool) (b : Bool) : Enforcer.track (l ++ [b]) = (Enforcer.track l).update b :=
  List.foldl_concat ..

theorem Enforcer.holds_track {l : List Bool} (h : l.length < 2 ^ 64) : (Enforcer.track l).Holds l := by
  induction l using List.reverseRecOn with
  | nil => exact (if_pos rfl).mpr rfl
  | append_singleton l b ih =>
    rw [List.length_append, List.length_singleton] at h
    rw [Enforcer.track_concat]
    exact (ih (by omega)).update h b

/-- Settles O37: one sample more keeps the grouping and the close of CHECK takes in the last group; along a run the registers
are the invariant's. -/
theorem enforcerHoldsTheGrouping : Obligations.EnforcerHoldsTheGrouping := by
  refine ⟨fun l hl => ⟨Enforcer.holds_track hl, (Enforcer.holds_track hl).close⟩, fun s hs => ⟨fun hp => ?_, fun hc => ?_⟩⟩
  · exact (hs.inv.running hp).enf_eq
  · exact (hs.inv.checked hc).enf_eq

/-! ### The CHECK step (44_run_length_enforcer.md R192 to R195) -/

theorem Enforcer.close_of_hasRun {e : Enforcer} (h : e.hasRun = true) :
    e.close = { e with rlMax := countMax e.rlMax e.rlCurLen, rlMin := countMin e.rlMin e.rlCurLen } :=
  if_pos h

theorem Enforcer.close_of_not_hasRun {e : Enforcer} (h : e.hasRun = false) : e.close = e :=
  if_neg (by simp [h])

/-- The close writes RL_MAX and RL_MIN alone. -/
theorem Enforcer.close_frame (e : Enforcer) : { e with rlMax := e.close.rlMax, rlMin := e.close.rlMin } = e.close := by
  unfold Enforcer.close
  split <;> rfl

theorem getLsbD_zero_violationDetail (x y : Bool) : (violationDetail x y).getLsbD 0 = !x := by
  cases x <;> cases y <;> rfl

theorem getLsbD_one_violationDetail (x y : Bool) : (violationDetail x y).getLsbD 1 = !y := by
  cases x <;> cases y <;> rfl

/-- Settles O32: the registers are those of the close, and the two comparisons choose between `pass` and `violate`. -/
theorem checkStepPassesOrHalts : Obligations.CheckStepPassesOrHalts := by
  intro s c hp
  have hmax : okMax s = true ↔ (s.enf.close.rlMax.toNat : Int) = sint32 s.latched.pTmax := decide_eq_true_iff
  have hmin : okMin s = true ↔ (s.enf.close.rlMin.toNat : Int) = sint32 s.latched.pTmin := decide_eq_true_iff
  rw [coreStep_of_check hp]
  refine ⟨s.enf.close.rlMax, s.enf.close.rlMin, fun h => ?_, fun h => ?_, fun h1 h2 => ?_, fun hne => ?_⟩
  · rw [Enforcer.close_of_hasRun h]
    exact ⟨toNat_countMax _ _, toNat_countMin _ _⟩
  · rw [Enforcer.close_of_not_hasRun h]
    exact ⟨rfl, rfl⟩
  · rw [Enforcer.close_frame, checkStep, hmax.mpr h1, hmin.mpr h2]
    rfl
  · refine ⟨violationDetail (okMax s) (okMin s), ?_, ?_, ?_⟩
    · rw [getLsbD_zero_violationDetail, Bool.not_eq_true', ← Bool.not_eq_true, hmax]
    · rw [getLsbD_one_violationDetail, Bool.not_eq_true', ← Bool.not_eq_true, hmin]
    · rw [← hmax, ← hmin, ← Bool.and_eq_true] at hne
      rw [Enforcer.close_frame, checkStep, if_neg hne]
      rfl

/-! ### A stream with DONE (44_run_length_enforcer.md R198) -/

/-- Settles O52: RL_MAX and RL_MIN of a checked run are the longest and the shortest run, and DONE says that they passed; the
length and `s_last` are the stream's part of the invariant. -/
theorem doneStreamHasExactRuns : Obligations.DoneStreamHasExactRuns := by
  intro s hs hd
  have hchk := hs.inv.checked (.inl hd)
  obtain ⟨hmax, hmin⟩ := hs.inv.done_exact hd
  refine ⟨if_pos hd, hchk.max_eq ▸ hmax, hchk.min_eq ▸ hmin, ?_, fun k x hx => ?_⟩
  · rw [hchk.out_length]
    exact (hs.inv.selection.selected hchk.width_ne).len_eq
  · obtain ⟨hk, -⟩ := List.getElem?_eq_some_iff.mp hx
    rw [hchk.stream k hk] at hx
    rw [← Option.some.inj hx, hchk.out_length]
    exact decide_eq_true_iff

/-! ### The raw outputs of one period, read linearly (42_lfsr_engine.md R157) -/

/-- The raw outputs of one period, in order. -/
def rawPeriod (n : Nat) (t s : Bits31) : List Bool := (List.range (2 ^ n - 1)).map (rawBit n t s)

theorem length_rawPeriod (n : Nat) (t s : Bits31) : (rawPeriod n t s).length = 2 ^ n - 1 := by
  rw [rawPeriod, List.length_map, List.length_range]

theorem getElem?_rawPeriod {n k : Nat} (hk : k < 2 ^ n - 1) (t s : Bits31) :
    (rawPeriod n t s)[k]? = some (rawBit n t s k) := by
  rw [rawPeriod, List.getElem?_map, List.getElem?_range hk]
  rfl

theorem getElem?_rawPeriod_eq_some_iff {n k : Nat} {t s : Bits31} {v : Bool} :
    (rawPeriod n t s)[k]? = some v ↔ k < 2 ^ n - 1 ∧ rawBit n t s k = v := by
  by_cases hk : k < 2 ^ n - 1
  · rw [getElem?_rawPeriod hk, Option.some.injEq, and_iff_right hk]
  · rw [List.getElem?_eq_none (by rw [length_rawPeriod]; omega)]
    exact iff_of_false (by simp) (fun h => hk h.1)

/-- Bit `j` of the state after `i` steps comes out `n - 1 - j` steps later (42_lfsr_engine.md R153). -/
theorem getLsbD_lfsrIter {n j : Nat} (hn : n ≤ 31) (hj : j < n) (t s : Bits31) (i : Nat) :
    (lfsrIter n t s i).getLsbD j = rawBit n t s (i + (n - 1 - j)) := by
  have hout := rawBit_of_lt hn t (lfsrIter n t s i) (k := n - 1 - j) (by omega)
  rw [rawBit_lfsrIter, show n - 1 - (n - 1 - j) = j by omega] at hout
  rw [← hout, Nat.add_comm]

/-- The state with bit `n - 2` alone puts out a single one, as output 1. -/
theorem rawBit_twoPow {n k : Nat} (h2 : 2 ≤ n) (hn : n ≤ 31) (hk : k < n) (t : Bits31) :
    rawBit n t (BitVec.twoPow 31 (n - 2)) k = decide (k = 1) := by
  rw [rawBit_of_lt hn t _ hk, BitVec.getLsbD_twoPow, decide_eq_true (by omega), Bool.true_and, decide_eq_decide]
  omega

/-- Some state shows an output unlike both its neighbours. -/
theorem exists_isolated_state {n : Nat} (h2 : 2 ≤ n) (hn : n ≤ 31) : ∃ y : Bits31, y.toNat < 2 ^ n ∧ y ≠ 0
    ∧ rawBit n (tapRom n) y 0 ≠ rawBit n (tapRom n) y 1 ∧ rawBit n (tapRom n) y 2 ≠ rawBit n (tapRom n) y 1 := by
  rcases h2.eq_or_lt with rfl | h3
  · exact ⟨2, by decide⟩
  · have hy : (BitVec.twoPow 31 (n - 2)).toNat = 2 ^ (n - 2) := by
      rw [BitVec.toNat_twoPow, Nat.mod_eq_of_lt (Nat.pow_lt_pow_right (by decide) (by omega))]
    refine ⟨BitVec.twoPow 31 (n - 2), ?_, fun e => ?_, ?_⟩
    · rw [hy]
      exact Nat.pow_lt_pow_right (by decide) (by omega)
    · rw [e] at hy
      exact (Nat.two_pow_pos (n - 2)).ne hy
    · rw [rawBit_twoPow h2 hn (by omega), rawBit_twoPow h2 hn (by omega), rawBit_twoPow h2 hn (by omega)]
      decide

section
variable {n : Nat} {s : Bits31} (h2 : 2 ≤ n) (hn : n ≤ 31) (hs : s.toNat < 2 ^ n) (h0 : s ≠ 0)
include h2 hn hs h0

/-- The raw outputs come round after a period. -/
theorem rawBit_add_period (k : Nat) : rawBit n (tapRom n) s (k + (2 ^ n - 1)) = rawBit n (tapRom n) s k := by
  rw [← rawBit_lfsrIter, lfsrIter_period h2 hn hs h0]

/-- `n` equal outputs are a state of `n` equal bits: all ones, since no state is zero. -/
theorem lfsrIter_eq_lowMask {i : Nat} {v : Bool} (h : ∀ j < n, rawBit n (tapRom n) s (i + j) = v) :
    lfsrIter n (tapRom n) s i = lowMask n := by
  have hbit : ∀ j, (lfsrIter n (tapRom n) s i).getLsbD j = (decide (j < n) && v) := fun j => by
    by_cases hj : j < n
    · rw [getLsbD_lfsrIter hn hj, h _ (by omega), decide_eq_true hj, Bool.true_and]
    · rw [getLsbD_of_toNat_lt (lfsrIter_lt (by omega) hn hs _ i) (by omega), decide_eq_false hj, Bool.false_and]
  have hv : v = true := by
    by_contra hv
    refine lfsrIter_ne_zero h2 hn hs h0 i (BitVec.eq_of_getLsbD_eq fun j _ => ?_)
    rw [hbit, Bool.eq_false_of_not_eq_true hv, Bool.and_false]
    exact BitVec.getLsbD_zero.symm
  refine BitVec.eq_of_getLsbD_eq fun j _ => ?_
  rw [hbit, getLsbD_lowMask hn, hv, Bool.and_true]

/-- All ones do not step to all ones, so no `n + 1` outputs are equal. -/
theorem runLengths_rawPeriod_le {k : Nat} (h : k ∈ runLengths (rawPeriod n (tapRom n) s)) : k ≤ n := by
  obtain ⟨i, v, -, hwin⟩ := exists_window h
  by_contra hlt
  have hbit : ∀ j < k, rawBit n (tapRom n) s (i + j) = v := fun j hj => (getElem?_rawPeriod_eq_some_iff.mp (hwin j hj)).2
  have hfirst := lfsrIter_eq_lowMask h2 hn hs h0 fun j hj => hbit j (by omega)
  have hsecond := lfsrIter_eq_lowMask h2 hn hs h0 (i := i + 1) fun j hj => by
    rw [Nat.add_assoc]
    exact hbit (1 + j) (by omega)
  obtain ⟨-, -, -, hmoves⟩ := lfsrStepIsInvertible n h2 hn
  refine (hmoves _ (lfsrIter_lt (by omega) hn hs _ i) (lfsrIter_ne_zero h2 hn hs h0 i)).2 ?_
  exact hsecond.trans hfirst.symm

/-- A run of `n` is a state of all ones, met early enough for all its bits to come out in the period. -/
theorem width_mem_runLengths_iff :
    n ∈ runLengths (rawPeriod n (tapRom n) s) ↔ ∃ i, i + n ≤ 2 ^ n - 1 ∧ lfsrIter n (tapRom n) s i = lowMask n := by
  constructor
  · intro h
    obtain ⟨i, v, hle, hwin⟩ := exists_window h
    rw [length_rawPeriod] at hle
    exact ⟨i, hle, lfsrIter_eq_lowMask h2 hn hs h0 fun j hj => (getElem?_rawPeriod_eq_some_iff.mp (hwin j hj)).2⟩
  · rintro ⟨i, hle, hones⟩
    have hwin : ∀ j, j < n → (rawPeriod n (tapRom n) s)[i + j]? = some true := fun j hj => by
      refine getElem?_rawPeriod_eq_some_iff.mpr ⟨by omega, ?_⟩
      have hbit := getLsbD_lfsrIter hn (show n - 1 - j < n by omega) (tapRom n) s i
      rw [hones, getLsbD_lowMask hn, decide_eq_true (by omega), show n - 1 - (n - 1 - j) = j by omega] at hbit
      exact hbit.symm
    obtain ⟨k, hk, hnk⟩ := window_le (by omega) hwin
    have hkn : n = k := Nat.le_antisymm hnk (runLengths_rawPeriod_le h2 hn hs h0 hk)
    exact hkn ▸ hk

/-- The state of all ones is met too late exactly when 1 to n - 1 steps lead from it to the seed at the period's end. -/
theorem exists_whole_ones_iff :
    (∃ i, i + n ≤ 2 ^ n - 1 ∧ lfsrIter n (tapRom n) s i = lowMask n)
      ↔ ∀ k, 1 ≤ k → k < n → s ≠ lfsrIter n (tapRom n) (lowMask n) k := by
  constructor
  · rintro ⟨i, hle, hones⟩ k hk1 hkn hcut
    rw [← hones, ← Period.lfsrIter_add] at hcut
    have := lfsrIter_injOn h2 hn hs h0 (Set.mem_Iio.mpr (show 0 < 2 ^ n - 1 by omega))
      (Set.mem_Iio.mpr (show k + i < 2 ^ n - 1 by omega)) hcut
    omega
  · intro hcut
    have hmask := toNat_lowMask hn
    have hpow : 2 ^ 2 ≤ 2 ^ n := Nat.pow_le_pow_right (by decide) h2
    have hmask0 : lowMask n ≠ 0 := fun e => by
      have hzero : 0 = 2 ^ n - 1 := (congrArg BitVec.toNat e).symm.trans hmask
      omega
    obtain ⟨i, hi, hones⟩ := exists_lfsrIter_eq h2 hn hs h0 (x := lowMask n) (by omega) hmask0
    refine ⟨i, ?_, hones⟩
    by_contra hlate
    refine hcut (2 ^ n - 1 - i) (by omega) (by omega) ?_
    rw [← hones, ← Period.lfsrIter_add, Nat.sub_add_cancel hi.le, lfsrIter_period h2 hn hs h0]

/-- The longest run is at most `n`, and it is `n` exactly when the seed is no cut seed. -/
theorem maxOf_rawPeriod :
    maxOf (runLengths (rawPeriod n (tapRom n) s)) ≤ n
      ∧ (maxOf (runLengths (rawPeriod n (tapRom n) s)) = n
        ↔ ∀ k, 1 ≤ k → k < n → s ≠ lfsrIter n (tapRom n) (lowMask n) k) := by
  have hpow : 2 ^ 2 ≤ 2 ^ n := Nat.pow_le_pow_right (by decide) h2
  have hne : runLengths (rawPeriod n (tapRom n) s) ≠ [] := by
    intro e
    have hsum := sum_runLengths (rawPeriod n (tapRom n) s)
    rw [e, length_rawPeriod, List.sum_nil] at hsum
    omega
  have hmem := maxOf_mem hne
  have hle := runLengths_rawPeriod_le h2 hn hs h0 hmem
  rw [← exists_whole_ones_iff h2 hn hs h0, ← width_mem_runLengths_iff h2 hn hs h0]
  exact ⟨hle, fun e => by rwa [e] at hmem, fun h => Nat.le_antisymm hle (le_maxOf h)⟩

/-- An output unlike both its neighbours in the cycle is a run of one wherever the cycle is cut. -/
theorem one_mem_runLengths_rawPeriod : 1 ∈ runLengths (rawPeriod n (tapRom n) s) := by
  have hpow : 2 ^ 2 ≤ 2 ^ n := Nat.pow_le_pow_right (by decide) h2
  obtain ⟨y, hy, hy0, hleft, hright⟩ := exists_isolated_state h2 hn
  obtain ⟨i, hi, rfl⟩ := exists_lfsrIter_eq h2 hn hs h0 hy hy0
  simp only [rawBit_lfsrIter, Nat.zero_add] at hleft hright
  rw [Nat.add_comm 1 i] at hleft hright
  rw [Nat.add_comm 2 i] at hright
  rcases (show i + 1 < 2 ^ n - 1 ∨ i + 1 = 2 ^ n - 1 by omega) with hin | hwrap
  · refine one_mem_of_isolated (getElem?_rawPeriod hin _ s) (fun h => ?_) (.inr fun h => ?_)
    · exact hright (getElem?_rawPeriod_eq_some_iff.mp h).2
    · exact hleft (getElem?_rawPeriod_eq_some_iff.mp h).2
  · refine one_mem_of_isolated (getElem?_rawPeriod (show 0 < 2 ^ n - 1 by omega) _ s) (fun h => hright ?_) (.inl rfl)
    have hnext := (getElem?_rawPeriod_eq_some_iff.mp h).2
    rw [← rawBit_add_period h2 hn hs h0, ← rawBit_add_period h2 hn hs h0 0, ← hwrap] at hnext
    rwa [show 0 + 1 + (i + 1) = i + 2 by omega, Nat.zero_add] at hnext

end

/-! ### The stream of a checked run (44_run_length_enforcer.md R197, R198) -/

theorem maxOf_map_mul (l : List Nat) (t : Nat) : maxOf (l.map (· * t)) = maxOf l * t := by
  induction l with
  | nil => exact (Nat.zero_mul t).symm
  | cons a l ih =>
    simp only [maxOf, List.map_cons, List.foldr_cons] at *
    rw [ih, Nat.mul_max_mul_right]

/-- The stream is the raw outputs of the period, each Tmin times. -/
theorem Checked.outVals_eq {s : State} (h : Checked s) (hsel : Selected s) :
    s.outVals = expand s.tmin.toNat (rawPeriod s.sel.width.toNat (tapRom s.sel.width.toNat) s.lfsr.seed) := by
  obtain ⟨t, ht, ht1, -, hlen, -⟩ := hsel.nat
  rw [ht, Int.toNat_natCast]
  refine List.ext_getElem? fun k => ?_
  rw [expand_getElem? ht1]
  by_cases hk : k < (2 ^ s.sel.width.toNat - 1) * t
  · rw [h.stream.getElem?_outVals (by rw [h.out_length, hlen]; exact hk), hsel.taps_eq, ht, Int.toNat_natCast,
      getElem?_rawPeriod (Nat.div_lt_of_lt_mul (by rwa [Nat.mul_comm]))]
  · rw [List.getElem?_eq_none, List.getElem?_eq_none]
    · rw [length_rawPeriod]
      exact (Nat.le_div_iff_mul_le ht1).mpr (by omega)
    · rw [State.outVals, List.length_map, h.out_length, hlen]
      omega

theorem Checked.runLengths_eq {s : State} (h : Checked s) (hsel : Selected s) :
    runLengths s.outVals =
      (runLengths (rawPeriod s.sel.width.toNat (tapRom s.sel.width.toNat) s.lfsr.seed)).map (· * s.tmin.toNat) := by
  have hpos := hsel.tmin_pos
  rw [h.outVals_eq hsel, runLengths_expand (by omega)]

/-- The shortest run of a checked stream is Tmin: the raw outputs hold a run of one, and no run is shorter. -/
theorem Checked.rlMin_eq {s : State} (h : Checked s) (hsel : Selected s) : (s.enf.rlMin.toNat : Int) = s.tmin := by
  obtain ⟨t, ht, -, htlt, -, hw⟩ := hsel.nat
  have hone := one_mem_runLengths_rawPeriod hsel.width_ge hw h.seed_ok.seed_lt h.seed_ok.seed_ne
  rw [h.min_eq, h.runLengths_eq hsel, ht, Int.toNat_natCast]
  refine congrArg Nat.cast (Nat.le_antisymm (minOf_le_of_mem ?_) (le_minOf ?_ (by omega)))
  · exact List.mem_map.mpr ⟨1, hone, Nat.one_mul t⟩
  · rw [List.forall_mem_map]
    exact fun k hk => Nat.le_mul_of_pos_left t (runLengths_pos hk)

/-- A multiple of `b` by at most the ceiling of `a / b` is `a` only when it is the ceiling and `b` divides `a`. -/
theorem mul_eq_iff_of_le_ceilDiv {a b m : Nat} (ha : 1 ≤ a) (hb : 1 ≤ b) (hm : m ≤ ceilDiv a b) :
    m * b = a ↔ b ∣ a ∧ m = ceilDiv a b := by
  obtain ⟨hge, hlt⟩ := ceilDiv_spec hb ha
  constructor
  · rintro rfl
    have := Nat.lt_of_mul_lt_mul_right hlt
    exact ⟨Nat.dvd_mul_left b m, by omega⟩
  · rintro ⟨⟨q, rfl⟩, rfl⟩
    rw [Nat.mul_comm b q] at hge hlt ⊢
    have := Nat.le_of_mul_le_mul_right hge hb
    have := Nat.lt_of_mul_lt_mul_right hlt
    rw [show ceilDiv (q * b) b = q by omega]

/-- The longest run of a checked stream is Tmax exactly when Tmin divides Tmax and the seed is no cut seed. -/
theorem Checked.rlMax_eq_iff {s : State} (h : Checked s) (hsel : Selected s) :
    (s.enf.rlMax.toNat : Int) = s.tmax ↔
      s.tmin ∣ s.tmax ∧ ∀ k, 1 ≤ k → k < s.sel.width.toNat →
        s.lfsr.seed ≠ lfsrIter s.sel.width.toNat (tapRom s.sel.width.toNat) (lowMask s.sel.width.toNat) k := by
  obtain ⟨t, ht, ht1, -, -, hw⟩ := hsel.nat
  obtain ⟨a, ha⟩ : ∃ a : Nat, s.tmax = a := ⟨s.tmax.toNat, by have := hsel.tmin_lt; omega⟩
  have hta : t < a := by have := hsel.tmin_lt; omega
  have hwidth : s.sel.width.toNat = ceilDiv a t := by rw [hsel.width_eq, ha, ht, Int.toNat_natCast, Int.toNat_natCast]
  obtain ⟨hle, hfull⟩ := maxOf_rawPeriod hsel.width_ge hw h.seed_ok.seed_lt h.seed_ok.seed_ne
  rw [h.max_eq, h.runLengths_eq hsel, maxOf_map_mul, ha, ht, Int.toNat_natCast, Nat.cast_inj, Int.natCast_dvd_natCast,
    mul_eq_iff_of_le_ceilDiv (by omega) ht1 (hwidth ▸ hle), ← hwidth, hfull]

/-- After a check DONE says that the longest run is Tmax; the shortest is Tmin anyway. -/
theorem State.Inv.done_iff {s : State} (h : s.Inv) (hc : s.status.done = true ∨ s.status.phase = .halted) :
    s.status.done = true ↔ (s.enf.rlMax.toNat : Int) = s.tmax := by
  have hchk := h.checked hc
  have hmin := hchk.rlMin_eq (h.selection.selected hchk.width_ne)
  exact ⟨fun hd => (h.done_exact hd).1, fun hmax => hc.resolve_right fun hp => h.halted_inexact hp ⟨hmax, hmin⟩⟩

/-- Settles O55: DONE says that the longest run of the stream is Tmax, and that run is Tmin times the longest raw run, which is
WIDTH but for the cut seeds. -/
theorem checkPassesExactlyOffTheCutSeeds : Obligations.CheckPassesExactlyOffTheCutSeeds := by
  intro s hs hc
  have hchk := hs.inv.checked hc
  rw [hs.inv.done_iff hc]
  exact hchk.rlMax_eq_iff (hs.inv.selection.selected hchk.width_ne)

/-- The two STATUS words of a failed check of the longest run alone. -/
theorem word_violate_longest (d : Bool) :
    ({ Status.reset with dropped := d }.violate false true).word = if d then 0x000015CC else 0x0000154C := by
  cases d <;> decide

/-- Settles O56: the shortest run is Tmin, so in HALTED it is the longest that failed, and STATUS is determined but for
DROPPED. -/
theorem failedCheckReportsTheLongestRunOnly : Obligations.FailedCheckReportsTheLongestRunOnly := by
  intro s hs hc
  have hchk := hs.inv.checked hc
  have hmin := hchk.rlMin_eq (hs.inv.selection.selected hchk.width_ne)
  refine ⟨hmin, fun hp => ?_⟩
  have hmax : (s.enf.rlMax.toNat : Int) ≠ s.tmax := fun hmax => hs.inv.halted_inexact hp ⟨hmax, hmin⟩
  have hdetail := hs.inv.halted_detail hp
  rw [decide_eq_false hmax, decide_eq_true hmin] at hdetail
  exact (congrArg Status.word (hs.inv.status.eq_of_halted hp hdetail s.status.dropped)).trans (word_violate_longest _)

end Sys2Proof.Machine

/-! ## What every cycle keeps, and the progress of a step (60_exceptions.md R210, R214, R216, R228) -/

namespace Sys2Proof.Machine

/-! ### What no host access writes -/

/-- What a host access never writes: FATAL, and the model's own record of inputs and cycles. -/
structure AccessFrame (s t : State) : Prop where
  fatal_eq : t.status.fatal = s.status.fatal
  inputs_eq : t.inputs = s.inputs
  cycle_eq : t.cycle = s.cycle

theorem AccessFrame.refl (s : State) : AccessFrame s s := ⟨rfl, rfl, rfl⟩

theorem AccessFrame.trans {s t u : State} (h : AccessFrame s t) (h' : AccessFrame t u) : AccessFrame s u :=
  ⟨h'.fatal_eq.trans h.fatal_eq, h'.inputs_eq.trans h.inputs_eq, h'.cycle_eq.trans h.cycle_eq⟩

theorem clearReport_accessFrame (s : State) : AccessFrame s (clearReport s) := ⟨rfl, rfl, rfl⟩

theorem raiseError_accessFrame (code : ErrCode) (detail : BitVec 2) (s : State) :
    AccessFrame s (raiseError code detail s) := ⟨rfl, rfl, rfl⟩

theorem validate_accessFrame (s : State) : AccessFrame s (validate s).2 := by
  rcases validate_cases s with ⟨code, detail, -, e⟩ | ⟨-, e⟩ <;> rw [e]
  · exact ⟨rfl, rfl, rfl⟩
  · rcases selectWidth_cases (sint32 s.host.tmax).toNat (sint32 s.host.tmin).toNat (clearDerived (latchParams s)) with
      ⟨-, e'⟩ | ⟨-, -, e'⟩ <;> rw [e'] <;> exact ⟨rfl, rfl, rfl⟩

theorem generate_accessFrame (s : State) : AccessFrame s (generate s) := by
  unfold generate
  split
  · exact (validate_accessFrame s).trans ⟨rfl, rfl, rfl⟩
  · exact validate_accessFrame s

theorem loadState_accessFrame (s : State) : AccessFrame s (loadState s) := by
  unfold loadState
  split_ifs <;> exact ⟨rfl, rfl, rfl⟩

theorem stepCmd_accessFrame (s : State) : AccessFrame s (stepCmd s) := by
  unfold stepCmd
  split_ifs <;> exact ⟨rfl, rfl, rfl⟩

theorem effectInIdle_accessFrame (w : Word) (s : State) : AccessFrame s (effectInIdle w s) := by
  have hclear := clearReport_accessFrame s
  unfold effectInIdle
  split
  · exact .refl s
  · exact hclear.trans (generate_accessFrame _)
  · exact hclear
  · exact hclear.trans (validate_accessFrame _)
  · exact hclear.trans (loadState_accessFrame _)
  · exact hclear.trans (stepCmd_accessFrame _)
  · exact hclear.trans (raiseError_accessFrame _ _ _)

theorem effectInBusy_accessFrame (w : Word) (s : State) : AccessFrame s (effectInBusy w s) := by
  unfold effectInBusy
  split <;> exact ⟨rfl, rfl, rfl⟩

theorem command_accessFrame {s t : State} {w : Word} (h : command w s = .next t) : AccessFrame s t := by
  rcases command_cases w s with ⟨-, e⟩ | ⟨-, -, e⟩ | ⟨-, -, e⟩ <;> obtain rfl := Host.Outcome.next.inj (e.symm.trans h)
  · exact .refl s
  · exact effectInBusy_accessFrame w s
  · exact effectInIdle_accessFrame w s

theorem writeWord_accessFrame (a : Index) (v : Word) (s : State) : AccessFrame s (writeWord a v s) := by
  rw [writeWord_frame]
  exact ⟨rfl, rfl, rfl⟩

/-- Every host access answers a next state, and none writes what `AccessFrame` lists. -/
theorem hostAccess_next (bus : Option BusTxn) (before s : State) :
    ∃ t, hostAccess bus before s = .next t ∧ AccessFrame s t := by
  rcases hostAccess_cases bus before s with ⟨-, e⟩ | ⟨a, v, -, e⟩ | ⟨a, v, -, -, e⟩ | ⟨a, v, -, -, e⟩ <;> rw [e]
  · exact ⟨_, rfl, .refl s⟩
  · exact ⟨_, rfl, rfl, rfl, rfl⟩
  · obtain ⟨t, ht⟩ := command_next v s
    exact ⟨t, ht, command_accessFrame ht⟩
  · exact ⟨_, rfl, writeWord_accessFrame a v s⟩

theorem hostAccess_accessFrame {bus : Option BusTxn} {before s t : State} (h : hostAccess bus before s = .next t) :
    AccessFrame s t := by
  obtain ⟨u, hu, hframe⟩ := hostAccess_next bus before s
  exact Host.Outcome.next.inj (hu.symm.trans h) ▸ hframe

/-! ### No step stops the machine (60_exceptions.md R210, R214) -/

theorem coreStep_cycle (c : CycleIn) (s : State) : (coreStep c s).cycle = s.cycle := by
  rcases coreStep_cases c s with e | ⟨-, v, e⟩ | ⟨-, -, e⟩ | ⟨-, e⟩ <;> rw [e] <;> rfl

theorem resetCycle_inputs_cycle (bus : Option BusTxn) (s : State) :
    (resetCycle bus s).inputs = s.inputs ∧ (resetCycle bus s).cycle = s.cycle := by
  unfold resetCycle
  split
  · exact ⟨rfl, rfl⟩
  · split <;> exact ⟨rfl, rfl⟩

/-- Settles O45: a reset cycle answers a state, and so does the host access after a core step; the inputs are taken and the
cycle is counted before either, and neither writes the two again. -/
theorem everyStepGoesOn : Obligations.EveryStepGoesOn := by
  intro s
  rcases step_cases s with ⟨-, e⟩ | ⟨-, e⟩ <;> rw [e]
  · exact ⟨_, rfl, resetCycle_inputs_cycle _ (takeInput s)⟩
  · obtain ⟨t, ht, -, hinputs, hcycle⟩ :=
      hostAccess_next (nextInput s).bus (takeInput s) (coreStep (nextInput s) (takeInput s))
    exact ⟨t, ht, hinputs.trans (coreStep_inputs _ _), hcycle.trans (coreStep_cycle _ _)⟩

/-! ### FATAL (60_exceptions.md R216) -/

theorem coreStep_of_halted {s : State} (h : s.status.phase = .halted) (c : CycleIn) : coreStep c s = s := by
  rw [coreStep, h]

/-- Of the host accesses only a CMD write touches STATUS. -/
theorem hostAccess_status_cases {bus : Option BusTxn} {before s t : State} (h : hostAccess bus before s = .next t) :
    t.status = s.status ∨ ∃ w, command w s = .next t := by
  rcases hostAccess_cases bus before s with ⟨-, e⟩ | ⟨a, v, -, e⟩ | ⟨a, v, -, -, e⟩ | ⟨a, v, -, -, e⟩ <;> rw [e] at h
  · exact .inl (Host.Outcome.next.inj h ▸ rfl)
  · exact .inl (Host.Outcome.next.inj h ▸ rfl)
  · exact .inr ⟨v, h⟩
  · obtain rfl := Host.Outcome.next.inj h
    exact .inl (by rw [writeWord_frame])

/-- In HALTED no host access changes STATUS, since every command word is ignored (40_command_dispatch.md R116). -/
theorem hostAccess_status_of_halted {bus : Option BusTxn} {before s t : State} (hp : s.status.phase = .halted)
    (h : hostAccess bus before s = .next t) : t.status = s.status := by
  rcases hostAccess_status_cases h with hkeep | ⟨w, hcmd⟩
  · exact hkeep
  · obtain rfl := Host.Outcome.next.inj ((command_of_halted hp w).symm.trans hcmd)
    rfl

theorem okMax_and_okMin_iff {s : State} : (okMax s && okMin s) = true ↔
    (s.enf.close.rlMax.toNat : Int) = sint32 s.latched.pTmax ∧ (s.enf.close.rlMin.toNat : Int) = sint32 s.latched.pTmin := by
  rw [Bool.and_eq_true, okMax, okMin, decide_eq_true_iff, decide_eq_true_iff]

/-- A core step leaves FATAL, but for a CHECK step whose two comparisons do not both hold. -/
theorem coreStep_fatal (c : CycleIn) (s : State) :
    (coreStep c s).status.fatal = s.status.fatal ∨ s.status.phase = .check ∧ (okMax s && okMin s) ≠ true := by
  rcases coreStep_cases c s with e | ⟨-, v, e⟩ | ⟨-, -, e⟩ | ⟨hp, e⟩ <;> rw [e]
  · exact .inl rfl
  · exact .inl rfl
  · exact .inl (by rw [runStep_status]; split <;> rfl)
  · by_cases hok : (okMax s && okMin s) = true
    · exact .inl (by rw [checkStep_status, if_pos hok, Status.pass_fatal])
    · exact .inr ⟨hp, hok⟩

/-- Settles O40: in HALTED there is no core step and no command word has effect; the host access never writes FATAL, and of
the core steps only a failing CHECK step does. -/
theorem fatalIsLeftOnlyByReset : Obligations.FatalIsLeftOnlyByReset := by
  intro s t _ hstep hr
  have haccess := hostAccess_of_step hstep hr
  refine ⟨fun hp => ?_, fun hbefore hafter => ?_⟩
  · rw [coreStep_of_halted (s := takeInput s) hp] at haccess
    exact hostAccess_status_of_halted (s := takeInput s) hp haccess
  · have hcore : (coreStep (nextInput s) (takeInput s)).status.fatal = true :=
      (hostAccess_accessFrame haccess).fatal_eq.symm.trans hafter
    rcases coreStep_fatal (nextInput s) (takeInput s) with hkeep | ⟨hp, hfail⟩
    · rw [hkeep, takeInput_status, hbefore] at hcore
      contradiction
    · exact ⟨hp, fun hok => hfail (okMax_and_okMin_iff.mpr hok)⟩

/-! ### An offered sample (60_exceptions.md R228, 10_state.md R53) -/

/-- The sample port shows no host register, no read, and no field of STATUS but PHASE. -/
theorem offer_frame {s : State} {host : HostRegs} {f : Status} {reads : List ReadResult}
    (hf : f.phase = s.status.phase) :
    let t := { s with host := host, status := f, reads := reads }
    sValid t = sValid s ∧ sData t = sData s ∧ sLast t = sLast s := by
  have hvalid : sValid { s with host := host, status := f, reads := reads } = sValid s := by rw [sValid, sValid, hf]
  exact ⟨hvalid, rfl, congrArg (· && finalSample s) hvalid⟩

/-- While BUSY a command word writes STATUS alone. -/
theorem effectInBusy_eq (w : Word) (s : State) : effectInBusy w s = { s with status := (effectInBusy w s).status } := by
  unfold effectInBusy
  split <;> rfl

/-- While BUSY a host access other than an ABORT writes host registers, the reads and fields of STATUS other than PHASE, and
nothing else. -/
theorem hostAccess_frame_without_abort {bus : Option BusTxn} {before s t : State} (hs : s.Busy)
    (hbus : ∀ v, bus ≠ some { we := true, addr := 2, data := v } ∨ v.toNat ≠ 2) (h : hostAccess bus before s = .next t) :
    ∃ host f reads, f.phase = s.status.phase ∧ t = { s with host := host, status := f, reads := reads } := by
  rcases hostAccess_cases bus before s with ⟨-, e⟩ | ⟨a, v, -, e⟩ | ⟨a, v, hb, ha, e⟩ | ⟨a, v, -, -, e⟩ <;> rw [e] at h
  · obtain rfl := Host.Outcome.next.inj h
    exact ⟨_, _, _, rfl, rfl⟩
  · obtain rfl := Host.Outcome.next.inj h
    exact ⟨_, _, _, rfl, rfl⟩
  · obtain rfl : 2 = a := index_of_regAt ha
    have hv : v.toNat ≠ 2 := (hbus v).resolve_left (not_not_intro hb)
    obtain rfl := Host.Outcome.next.inj ((command_of_busy hs v).symm.trans h)
    exact ⟨_, _, _, (effectInBusy_phase v s).resolve_right fun habort => hv habort.1, effectInBusy_eq v s⟩
  · obtain rfl := Host.Outcome.next.inj h
    exact ⟨_, _, _, rfl, writeWord_frame a v s⟩

/-- Settles O34: with the consumer stalled there is no core step, and a host access other than an ABORT writes nothing that
the sample port shows. -/
theorem offeredSampleIsStable : Obligations.OfferedSampleIsStable := by
  intro s t hstep hs hvalid hr hready hbus
  have haccess := hostAccess_of_step hstep hr
  rw [coreStep_of_stall (s := takeInput s) (sValid_iff.mp hvalid) hready] at haccess
  obtain ⟨host, f, reads, hf, rfl⟩ :=
    hostAccess_frame_without_abort (s := takeInput s) ⟨hs.phase_run, hs.is_busy⟩ hbus haccess
  obtain ⟨hv, hdata, hlast⟩ := offer_frame (s := takeInput s) (host := host) (reads := reads) hf
  exact ⟨hv.trans hvalid, hdata, hlast, rfl⟩

end Sys2Proof.Machine

/-! ## A reset cycle, and an ABORT in the cycle of a core step (70_reset_and_hazards.md R240, R246) -/

namespace Sys2Proof.Machine

/-! ### A reset cycle (70_reset_and_hazards.md R240) -/

theorem step_of_reset {s : State} {c : CycleIn} {cs : List CycleIn} (hin : s.inputs = c :: cs) (hr : c.rst = true) :
    step s = .next (resetCycle c.bus (takeInput s)) := by
  have hnext : nextInput s = c := by rw [nextInput, hin]
  rcases step_cases s with ⟨-, e⟩ | ⟨hrst, -⟩
  · rw [e, hnext]
  · rw [hnext, hr] at hrst
    contradiction

theorem resetCycle_of_read (a : Index) (v : Word) (s : State) :
    resetCycle (some { we := false, addr := a, data := v }) s = recordRead a (readWord a s) (resetBlock s) := rfl

/-- Without a read, so with a write or with no access, a reset cycle is the reset alone. -/
theorem resetCycle_of_no_read {bus : Option BusTxn} (h : ∀ a v, bus ≠ some { we := false, addr := a, data := v })
    (s : State) : resetCycle bus s = resetBlock s := by
  rcases bus with _ | ⟨we, a, v⟩
  · rfl
  · cases we
    · exact absurd rfl (h a v)
    · rfl

/-- A reset block is the reset state, but for the model's own four fields (log 2, 4, 5). -/
theorem resetBlock_eq (s : State) :
    resetBlock s = { State.reset with inputs := s.inputs, cycle := s.cycle, out := s.out, reads := s.reads } := rfl

/-- Settles O39: a reset cycle resets the block after the cycle's inputs are taken, and its access has no effect but a read,
which looks at the state before. -/
theorem resetCycleRestoresEveryRegister : Obligations.ResetCycleRestoresEveryRegister := by
  intro s c cs hin hr r
  have hstep := step_of_reset hin hr
  have hblock : resetBlock (takeInput s) = r := by
    rw [resetBlock_eq, takeInput_inputs, hin]
    rfl
  refine ⟨fun a v hbus => ?_, fun hbus => ?_⟩
  · rw [hstep, hbus, resetCycle_of_read, hblock, readWord_takeInput]
    rfl
  · rw [hstep, resetCycle_of_no_read hbus, hblock]

/-! ### The states ABORT meets (43_prbs_generator.md R174, 44_run_length_enforcer.md R192) -/

/-- The RUN step of the final sample moves PHASE to CHECK and writes nothing else of STATUS. -/
theorem coreStep_status_of_final {s : State} {c : CycleIn} (hp : s.status.phase = .run) (hready : c.sReady = true)
    (hfin : finalSample s = true) : (coreStep c s).status = { s.status with phase := .check } := by
  rw [coreStep_of_run hp hready, runStep_status_of_run hp, if_pos hfin]

/-- The final sample is emitted with `s_last`. -/
theorem coreStep_out_of_final {s : State} {c : CycleIn} (hp : s.status.phase = .run) (hready : c.sReady = true)
    (hfin : finalSample s = true) : (coreStep c s).out = s.out ++ [{ val := sData s, last := true }] := by
  rw [(offeredSampleIsTheEmittedOne s c hp hready).1, sLast_of_sValid (sValid_iff.mpr hp), hfin]

theorem coreStep_statusInv_of_check {s : State} (h : StatusInv s.status) (hp : s.status.phase = .check) (c : CycleIn) :
    StatusInv (coreStep c s).status := by
  rw [coreStep_of_check hp, checkStep_status]
  split
  · exact h.pass hp
  · exact h.violate hp _ _

/-- A CHECK step that does not set DONE halts the block. -/
theorem coreStep_halted_of_not_done {s : State} {c : CycleIn} (hp : s.status.phase = .check)
    (hdone : (coreStep c s).status.done = false) : (coreStep c s).status.phase = .halted := by
  rw [coreStep_of_check hp] at hdone ⊢
  rcases checkStep_phase s with ⟨-, hd⟩ | ⟨hhalted, -⟩
  · rw [hdone] at hd
    contradiction
  · exact hhalted

/-! ### What ABORT makes of the state it meets (40_command_dispatch.md R113, R116) -/

/-- A cycle whose host writes ABORT is ABORT in the state the core step leaves (20_memory.md R71). -/
theorem step_of_abort {s : State} {c : CycleIn} {cs : List CycleIn} (hin : s.inputs = c :: cs) (hr : c.rst = false)
    (hbus : c.bus = some { we := true, addr := 2, data := 2 }) :
    step s = exec .abort (coreStep c { s with inputs := cs, cycle := s.cycle + 1 }) :=
  stepRunsTheWrittenCommand s c cs 2 .abort hin hr hbus (decode_encode .abort)

theorem exec_abort_of_halted {s : State} (h : s.status.phase = .halted) : exec .abort s = .next s :=
  congrArg Host.Outcome.next (gate_halted h)

/-- STATUS after the ABORT of a run: ERROR with code 9, no detail, every other bit 0. -/
theorem word_abortRun {f : Status} (h : f.fatal = false) : f.abortRun.word = 0x00000904 := by
  simp [Status.word, h, Phase.code, ErrCode.code]

/-- STATUS reads 0 once the report is cleared in IDLE. -/
theorem word_clearReport_of_idle {f : Status} (h : StatusInv f) (hp : f.phase = .idle) : f.clearReport.word = 0 := by
  have hbusy : f.busy = false := h.busy_eq_false (.inl hp)
  have hfatal : f.fatal = false := h.not_fatal (by simp [hp])
  simp [Status.word, hp, hbusy, hfatal, Phase.code, ErrCode.code]

/-- ABORT in CHECK: the run ends with ABORTED. -/
theorem exec_abort_of_check {s : State} (h : StatusInv s.status) (hp : s.status.phase = .check) :
    exec .abort s = .next (abortRun s) ∧ readReg .status (abortRun s) = 0x00000904 :=
  ⟨exec_abort_of_busy ⟨.inr (.inr hp), h.busy_iff.mpr (.inr (.inr hp))⟩, word_abortRun (h.not_fatal (by simp [hp]))⟩

/-- ABORT after a passing check: the report is cleared, DONE with it. -/
theorem exec_abort_of_done {s : State} (h : StatusInv s.status) (hd : s.status.done = true) :
    exec .abort s = .next (clearReport s) ∧ readReg .status (clearReport s) = 0 := by
  obtain ⟨-, hidle⟩ := h.done_clean hd
  exact ⟨exec_abort_of_idle ⟨hidle, h.busy_eq_false (.inl hidle)⟩, word_clearReport_of_idle h hidle⟩

/-- Settles O44: the core step leaves CHECK after the final sample, IDLE after a passing check, HALTED after a failing one,
and ABORT meets that state. -/
theorem abortMeetsWhatTheCoreStepLeaves : Obligations.AbortMeetsWhatTheCoreStepLeaves := by
  intro s c cs hs hin hr hbus u
  have hstep : step s = exec .abort u := step_of_abort hin hr hbus
  refine ⟨fun hp hready hlast => ?_, fun hp hdone => ?_, fun hp hdone => ?_⟩
  · have hfin : finalSample s = true := finalSample_iff.mpr hlast
    have hstatus : u.status = { s.status with phase := .check } := coreStep_status_of_final hp hready hfin
    have hout : u.out = s.out ++ [{ val := sData s, last := true }] := coreStep_out_of_final hp hready hfin
    have hu : StatusInv u.status := hstatus ▸ hs.move (.inr (.inl hp)) (.inr (.inr rfl))
    obtain ⟨habort, hword⟩ := exec_abort_of_check hu (by rw [hstatus])
    exact ⟨abortRun u, hstep.trans habort, hword, rfl, by rw [abortRun_out, hout, List.getLast?_concat]⟩
  · have hu : StatusInv u.status :=
      coreStep_statusInv_of_check (s := { s with inputs := cs, cycle := s.cycle + 1 }) hs hp c
    obtain ⟨habort, hword⟩ := exec_abort_of_done hu hdone
    exact ⟨clearReport u, hstep.trans habort, hword, rfl⟩
  · have hhalted : u.status.phase = .halted := coreStep_halted_of_not_done hp hdone
    exact ⟨hstep.trans (exec_abort_of_halted hhalted), hhalted⟩

end Sys2Proof.Machine
